-- ==== Sys2Proof/Word.lean ====
section
/-! DEFINITION. The words of the block: the widths of 00_scope.md R7 that are a type of their own here. Narrower register
fields (4 bits) are written `BitVec 4` where they stand. -/

namespace Sys2Proof

/-- `u8` of R7; one byte of IN, of OUT, or of a wire format (R8). -/
abbrev Byte := BitVec 8

/-- `u16` of R7. -/
abbrev Half := BitVec 16

/-- `u32` of R7: one register as the bus moves it (10_state.md R22). -/
abbrev Word := BitVec 32

end Sys2Proof
end

