-- ==== Sys2Proof/Syntax.lean ====
section
/-! DEFINITION. The seven commands, the block's counterpart of instructions (00_scope.md R12): one constructor per row of
spec/opcode_table.json (30_encoding.md R91). No command has an operand field (R90, R94). -/

namespace Sys2Proof

inductive Instr where
  /-- CSUM, 40_checksum.md R110. -/
  | csum
  /-- ZCF.IP, 40_checksum.md R119. -/
  | zcfIp
  /-- ZCF.ICMP, 40_checksum.md R120. -/
  | zcfIcmp
  /-- BLDDG, 41_datagram.md R140. -/
  | blddg
  /-- BLDPKT, 42_packet.md R150. -/
  | bldpkt
  /-- DECODE, 43_decode.md R170. -/
  | decode
  /-- MOVE, 44_move.md R185. -/
  | move
deriving DecidableEq, Repr

end Sys2Proof
end

