-- ==== Sys2Proof/Decode.lean ====
section
/-! DEFINITION. The command decoder and encoder (30_encoding.md Part A). A command word is moved as one whole 32-bit value
(20_memory.md R69), so there is no byte order to choose. -/

namespace Sys2Proof

/-- Why a word is illegal (R92, R93); the block shows the host only that it is. -/
inductive DecodeError where
  /-- `w[31:8] != 0`: the field RSVD must be zero. -/
  | reservedField
  /-- OPCODE `0x00`, or `0x08` to `0xFF`. -/
  | reservedOpcode
deriving DecidableEq, Repr

/-- The field OPCODE, bits 7:0 (R90). -/
def opcodeField (w : Word) : Byte := w.extractLsb' 0 8

/-- The field RSVD, bits 31:8 (R90). -/
def reservedFieldOf (w : Word) : BitVec 24 := w.extractLsb' 8 24

/-- R91, R92: every one of the 2^32 words is a command or is illegal, by name. -/
def decode (w : Word) : Except DecodeError Instr :=
  if reservedFieldOf w ≠ 0 then .error .reservedField
  else match (opcodeField w).toNat with
    | 0x01 => .ok .csum
    | 0x02 => .ok .zcfIp
    | 0x03 => .ok .zcfIcmp
    | 0x04 => .ok .blddg
    | 0x05 => .ok .bldpkt
    | 0x06 => .ok .decode
    | 0x07 => .ok .move
    | _ => .error .reservedOpcode

/-- The opcode column of R91. -/
def opcodeOf : Instr → Byte
  | .csum => 0x01
  | .zcfIp => 0x02
  | .zcfIcmp => 0x03
  | .blddg => 0x04
  | .bldpkt => 0x05
  | .decode => 0x06
  | .move => 0x07

/-- R90, R91: RSVD zero above OPCODE. -/
def encode (i : Instr) : Word := (0 : BitVec 24) ++ opcodeOf i

/-- The instruction `decode` reads from a table row's `nbits` bits `w`, bits above `nbits` being zero. Every command is 32
bits (R95), so a longer row is no command. -/
def decodeTableWord (nbits w : Nat) : Option Instr :=
  if nbits ≤ 32 ∧ w < 2 ^ nbits then (decode (BitVec.ofNat 32 w)).toOption else none

end Sys2Proof
end

