-- ==== Sys2Proof/Config.lean ====
section
/-! DEFINITION. What is fixed for one block, and what the spec leaves open: the parameters CAP and BASE (00_scope.md R5,
92_eei_decisions.md D4, D5) and the free values of bytes nobody has written (93_implementation_defined.md U1). -/

namespace Sys2Proof

/-- The block's one free parameter (R5): the capacity in bytes of IN and of OUT, each. State carries it, unchanged by every
step, because a step takes nothing but a state (log 1). -/
structure Config where
  cap : Nat
deriving DecidableEq, Repr

/-- R5: `28 <= CAP <= 65535`. -/
abbrev Config.Legal (c : Config) : Prop := 28 ≤ c.cap ∧ c.cap ≤ 65535

/-- R5: "Default `CAP = 2048`." -/
def Config.standard : Config := ⟨2048⟩

/-- BASE of 20_memory.md R61: the block's base address in the platform's map. The platform fixes it and no rule reads it, so
nothing of the model does (log 8). -/
opaque Config.baseAddress : Nat

/-- U1: the byte that `IN[i]` holds, after the `k`-th reset (power-on is number 0), as long as nothing has written it. A free
value: no body, so no proof can see which byte it is (log 2, 3). -/
opaque Config.inByteAfterReset (k i : Nat) : Byte

/-- U1 for `OUT[i]`, as `Config.inByteAfterReset` is for `IN[i]` (log 2, 3). -/
opaque Config.outByteAfterReset (k i : Nat) : Byte

end Sys2Proof
end

