-- ==== Sys2Proof/Transaction.lean ====
section
/-! DEFINITION. What the host can do and what it gets back (20_memory.md R60; 30_encoding.md R98), the names of the register
map (20_memory.md R63), and the reset input (70_reset_and_hazards.md R220). Only the types; their meaning is
Sys2Proof/Machine/Bus.lean. -/

namespace Sys2Proof

/-- R60, R98: one host bus access. The offset counts bytes from the block's base address; R61 gives it 18 bits, which
`Transaction.wellFormed` checks. -/
inductive Transaction where
  | write32 (offset : Nat) (value : Word)
  | read32 (offset : Nat)
  | write8 (offset : Nat) (value : Byte)
  | read8 (offset : Nat)
deriving DecidableEq, Repr

/-- R60: the response to a transaction, with the value a read returns. A read that gets `busError` returns no value. -/
inductive Response where
  /-- `OK` to a write. -/
  | ok
  /-- `OK` to `HostRead32`, with the value returned. -/
  | okWord (value : Word)
  /-- `OK` to `HostRead8`, with the byte returned. -/
  | okByte (value : Byte)
  /-- `BusError` (R67). -/
  | busError
deriving DecidableEq, Repr

/-- What the outside world does to the block, one at a time: a transaction (R60), or the reset input between two
transactions (R220). -/
inductive HostEvent where
  | bus (t : Transaction)
  | reset
deriving DecidableEq, Repr

/-- The registers of the map of R63, by name. -/
inductive Reg where
  | cmd | status | len | outLen | csumRes
  | icmpId | icmpSeq | ipId | ipTtl | ipProto | ipSrc | ipDst | ipOpt
  | decVer | decIhl | decTotLen | decIpId | decFrag | decTtl | decProto | decHcsum | decSrc | decDst
  | decType | decCode | decIcsum | decIcmpId | decIcmpSeq
deriving DecidableEq, Repr

/-- The access column of R63. -/
inductive Access where
  /-- RW: the host may read and write. -/
  | readWrite
  /-- RO: the host may read; writes are ignored. -/
  | readOnly
  /-- WO: the host may write; reads return 0. -/
  | writeOnly
deriving DecidableEq, Repr

end Sys2Proof
end

