-- ==== Sys2Proof/Machine/State.lean ====
section
/-! DEFINITION. The state of the block: every register and buffer of 10_state.md R20, the parameter CAP, and the model's own
record of the outside world. Plain data. -/

namespace Sys2Proof.Machine

/-- One buffer: the bytes written since the last reset, as (index, byte) pairs with strictly rising indices (`Memory.wf`). An
index that is not listed has never been written (log 2, 7). -/
abbrev Memory := List Host.Cell

/-- The canonical form of a buffer: indices strictly rise. An unlisted byte reads as "never written", which no entry can
equal, so there is no entry to leave out for that reason (log 7). -/
abbrev Memory.wf (m : Memory) : Prop := m.Pairwise (fun a b => a.1 < b.1)

/-- The eight operand registers, 10_state.md R23 to R30: written by the host, read by BLDDG and BLDPKT. -/
structure OperandRegs where
  /-- ICMP_ID, R23. -/
  icmpId : BitVec 16
  /-- ICMP_SEQ, R24. -/
  icmpSeq : BitVec 16
  /-- IP_ID, R25. -/
  ipId : BitVec 16
  /-- IP_TTL, R26. -/
  ipTtl : BitVec 8
  /-- IP_PROTO, R27. -/
  ipProto : BitVec 8
  /-- IP_SRC, R28. -/
  ipSrc : BitVec 32
  /-- IP_DST, R29. -/
  ipDst : BitVec 32
  /-- IP_OPT, R30. -/
  ipOpt : BitVec 8
deriving DecidableEq, Repr

/-- The fifteen decode result registers, 10_state.md R36 to R50: "read-only registers that only DECODE writes, all together". -/
structure DecodeRegs where
  /-- DEC_VER, R36. -/
  ver : BitVec 4
  /-- DEC_IHL, R37. -/
  ihl : BitVec 4
  /-- DEC_TOTLEN, R38. -/
  totLen : BitVec 16
  /-- DEC_IPID, R39. -/
  ipId : BitVec 16
  /-- DEC_FRAG, R40. -/
  frag : BitVec 16
  /-- DEC_TTL, R41. -/
  ttl : BitVec 8
  /-- DEC_PROTO, R42. -/
  proto : BitVec 8
  /-- DEC_HCSUM, R43. -/
  hcsum : BitVec 16
  /-- DEC_SRC, R44. -/
  src : BitVec 32
  /-- DEC_DST, R45. -/
  dst : BitVec 32
  /-- DEC_TYPE, R46. -/
  icmpType : BitVec 8
  /-- DEC_CODE, R47. -/
  icmpCode : BitVec 8
  /-- DEC_ICSUM, R48. -/
  icsum : BitVec 16
  /-- DEC_ICMPID, R49. -/
  icmpId : BitVec 16
  /-- DEC_ICMPSEQ, R50. -/
  icmpSeq : BitVec 16
deriving DecidableEq, Repr

/-- The machine. CMD is a write port that holds nothing (R31) and the checksum accumulator is not state (R53). -/
structure State where
  /-- The parameter CAP (00_scope.md R5), fixed for the machine (log 1). -/
  cfg : Config
  /-- ICMP_ID to IP_OPT, R23 to R30. -/
  operands : OperandRegs
  /-- STATUS.ERR, R32: 4 bits. -/
  err : BitVec 4
  /-- LEN, R33. -/
  len : BitVec 16
  /-- OUT_LEN, R34. -/
  outLen : BitVec 16
  /-- CSUM_RES, R35. -/
  csumRes : BitVec 16
  /-- DEC_VER to DEC_ICMPSEQ, R36 to R50. -/
  dec : DecodeRegs
  /-- IN, R51. -/
  inBuf : Memory
  /-- OUT, R52. -/
  outBuf : Memory
  /-- The host's events still to come, next first (20_memory.md R60). The model's own field (log 4). -/
  pending : List HostEvent
  /-- The responses given so far, oldest first (R60). The model's own field (log 6). -/
  responses : List Response
  /-- Resets since power-on; the free values of unwritten bytes depend on it. The model's own field (log 2, 3). -/
  resets : Nat
deriving DecidableEq, Repr

/-- The error kinds a command can raise, 60_exceptions.md R190 to R195. -/
inductive ErrKind where
  | illegalCommand
  | badLength
  | overflow
  | malformedReply
deriving DecidableEq, Repr

/-- Nothing stops this block: "no input, no command word and no register content can hang it" (60_exceptions.md R191). Every
error of the spec is a next state (an abort, R198) or a response (BusError, R67), so there is no fault to name. -/
inductive Fault where
deriving DecidableEq, Repr

/-- The one refusal is that of `exec` for a command without a meaning. -/
inductive Refusal where
  /-- Raised by an arm of `exec` whose command has no meaning yet; no arm does. Safe: the machine stops where the hardware
  would go on. -/
  | notModelled (mnemonic : String)
deriving DecidableEq, Repr

/-- The operand registers after reset, the values of R23 to R30. -/
def OperandRegs.reset : OperandRegs where
  icmpId := 0x0000
  icmpSeq := 0x0000
  ipId := 0x0000
  ipTtl := 64
  ipProto := 1
  ipSrc := 0x7F000001
  ipDst := 0x7F000001
  ipOpt := 0

/-- The decode result registers after reset, zero each (R36 to R50). -/
def DecodeRegs.reset : DecodeRegs where
  ver := 0
  ihl := 0
  totLen := 0
  ipId := 0
  frag := 0
  ttl := 0
  proto := 0
  hcsum := 0
  src := 0
  dst := 0
  icmpType := 0
  icmpCode := 0
  icsum := 0
  icmpId := 0
  icmpSeq := 0

/-- A block with parameter `c` right after power-on and reset (10_state.md section 7, 70_reset_and_hazards.md R220 to R222): no
byte of IN or OUT has a known value (R221), and the host has done nothing yet. -/
def State.powerOn (c : Config) : State where
  cfg := c
  operands := OperandRegs.reset
  err := 0
  len := 0
  outLen := 0
  csumRes := 0x0000
  dec := DecodeRegs.reset
  inBuf := []
  outBuf := []
  pending := []
  responses := []
  resets := 0

/-- The machine after reset, with the default `CAP = 2048` of R5. -/
def State.reset : State := State.powerOn Config.standard

end Sys2Proof.Machine
end

