-- ==== Sys2Proof/Machine/Flags.lean ====
section
/-! DEFINITION. The block's only flag, STATUS.ERR (10_state.md R32; 60_exceptions.md R190). There are no condition codes and no
carry flag. -/

namespace Sys2Proof.Machine

/-- `0` OK: the last command completed, or no command has run since reset (R190). -/
def errOk : BitVec 4 := 0

/-- The code of each error kind (R190). -/
def ErrKind.code : ErrKind → BitVec 4
  | .illegalCommand => 1
  | .badLength => 2
  | .overflow => 3
  | .malformedReply => 4

/-- STATUS as the host reads it: ERR in bits 3:0, zero above (R32). -/
def statusWord (err : BitVec 4) : Word := err.setWidth 32

end Sys2Proof.Machine
end

