-- ==== Sys2Proof/Machine/Ops.lean ====
section
/-! DEFINITION. The named operations over the buffers and registers, the primitives of 00_scope.md R9, and how a command ends:
`complete` and `raise`. Every field of State is written by an operation of this file only. -/

namespace Sys2Proof.Machine

/-! ## Buffers (10_state.md R51, R52) -/

/-- The byte written at index `i`, or none if nothing has written it since the last reset. -/
def Memory.read : Memory → Nat → Option Byte
  | [], _ => none
  | (a, b) :: m, i => if a = i then some b else Memory.read m i

/-- `B[i] <- b`, keeping the indices in rising order. -/
def Memory.write : Memory → Nat → Byte → Memory
  | [], i, b => [(i, b)]
  | (a, c) :: m, i, b =>
    if i < a then (i, b) :: (a, c) :: m
    else if i = a then (i, b) :: m
    else (a, c) :: Memory.write m i b

/-- The bytes of a sequence at indices `i`, `i+1`, .... -/
def cellsFrom : Nat → List Byte → Memory
  | _, [] => []
  | i, b :: bs => (i, b) :: cellsFrom (i + 1) bs

/-- `B[0..n) <- bs` where `n` is the length of `bs`; bytes from `n` on keep what they held (R52; 44_move.md R185). -/
def Memory.fill (bs : List Byte) (m : Memory) : Memory :=
  cellsFrom 0 bs ++ m.filter (fun c => decide (bs.length ≤ c.1))

/-! ## Byte order (00_scope.md R8, R9): big-endian, everywhere -/

/-- `v[15:8]` then `v[7:0]`: what `MemWrite(B, a, 2, v)` writes. -/
def bytes2 (v : Half) : List Byte := [v.extractLsb' 8 8, v.extractLsb' 0 8]

/-- What `MemWrite(B, a, 4, v)` writes. -/
def bytes4 (v : Word) : List Byte :=
  [v.extractLsb' 24 8, v.extractLsb' 16 8, v.extractLsb' 8 8, v.extractLsb' 0 8]

/-- `MemRead(B, a, 2)`, for a buffer given by its bytes. -/
def memRead2 (f : Nat → Byte) (a : Nat) : Half := f a ++ f (a + 1)

/-- `MemRead(B, a, 4)`. -/
def memRead4 (f : Nat → Byte) (a : Nat) : Word := f a ++ f (a + 1) ++ f (a + 2) ++ f (a + 3)

/-- The scratch sequence `T` with the bytes `bs` stored at `a`, `a+1`, ...; nothing else changed. -/
def splice (t : List Byte) (a : Nat) (bs : List Byte) : List Byte :=
  t.take a ++ bs ++ t.drop (a + bs.length)

/-! ## Writing the state, one operation per register or buffer -/

/-- `STATUS.ERR <- e`. -/
def State.setErr (s : State) (e : BitVec 4) : State := { s with err := e }

/-- `LEN <- v`. -/
def State.setLen (s : State) (v : Half) : State := { s with len := v }

/-- `CSUM_RES <- c`. -/
def State.setCsumRes (s : State) (c : Half) : State := { s with csumRes := c }

/-- All fifteen DEC registers at once (10_state.md section 4). -/
def State.setDec (s : State) (d : DecodeRegs) : State := { s with dec := d }

/-- A host write of an operand register. -/
def State.setOperands (s : State) (o : OperandRegs) : State := { s with operands := o }

/-- `OUT[0..n) <- bs ; OUT_LEN <- n`, how ZCF.IP, ZCF.ICMP, BLDDG and BLDPKT deliver their result (R34, R52). -/
def State.putOutput (s : State) (bs : List Byte) : State :=
  { s with outBuf := Memory.fill bs s.outBuf, outLen := BitVec.ofNat 16 bs.length }

/-- `IN[0..n) <- bs`, the copy MOVE makes (44_move.md R185). -/
def State.fillInput (s : State) (bs : List Byte) : State :=
  { s with inBuf := Memory.fill bs s.inBuf }

/-- `IN[i] <- b`, a host byte write (20_memory.md R64). -/
def State.setInByte (s : State) (i : Nat) (b : Byte) : State :=
  { s with inBuf := Memory.write s.inBuf i b }

/-- Gives the host a response (R60). -/
def State.respond (s : State) (r : Response) : State :=
  { s with responses := s.responses ++ [r] }

/-- The host's events still to come. -/
def State.setPending (s : State) (es : List HostEvent) : State := { s with pending := es }

/-- The reset input (70_reset_and_hazards.md R220, R221): every register at its reset value; IN and OUT keep or lose their
bytes, which is to say that each holds some byte the spec does not name, a fresh free value (log 3). The host's further events
and the responses already given are not the block's and stay. -/
def State.applyReset (s : State) : State :=
  { State.powerOn s.cfg with
    pending := s.pending, responses := s.responses, resets := s.resets + 1 }

/-! ## How a command ends -/

/-- A command that completes writes `STATUS.ERR <- 0` last (R32). -/
def complete (s : State) : Host.Outcome State Fault Refusal := .next (s.setErr errOk)

/-- TAKING AN EXCEPTION. `raise <Kind>` of 00_scope.md R9: the command ends at once, writes `STATUS.ERR <- code(<Kind>)` and
nothing else. It saves nothing, changes no mode and transfers control nowhere (60_exceptions.md R201), and there is no return
from it: the next command runs normally (R202). -/
def raise (k : ErrKind) (s : State) : Host.Outcome State Fault Refusal := .next (s.setErr k.code)

/-- Goes on from a next state; a fault or a refusal passes through. -/
def andThen (o : Host.Outcome State Fault Refusal) (f : State → State) : Host.Outcome State Fault Refusal :=
  match o with
  | .next s => .next (f s)
  | .fault r => .fault r
  | .refused r => .refused r

/-- The next state of an outcome, where there is one. -/
def nextOf (o : Host.Outcome State Fault Refusal) : Option State :=
  match o with
  | .next s => some s
  | .fault _ => none
  | .refused _ => none

end Sys2Proof.Machine
end

