-- ==== Sys2Proof/Machine/Operands.lean ====
section
/-! DEFINITION. Where a command's operands come from (30_encoding.md R94): the input bytes `IN[0..LEN)`, their length LEN, the
operand registers, and for MOVE the valid part of OUT; and how the host's writes are narrowed (10_state.md R22). -/

namespace Sys2Proof.Machine

/-- `IN[i]`: the byte written there, or a byte the spec does not name (R51; 70_reset_and_hazards.md R221; log 2). -/
def State.inByte (s : State) (i : Nat) : Byte :=
  (Memory.read s.inBuf i).getD (Config.inByteAfterReset s.resets i)

/-- `OUT[i]`, as `State.inByte` (R52, R221; log 2). -/
def State.outByte (s : State) (i : Nat) : Byte :=
  (Memory.read s.outBuf i).getD (Config.outByteAfterReset s.resets i)

/-- `IN[0..n)`. -/
def State.inBytes (s : State) (n : Nat) : List Byte := (List.range n).map s.inByte

/-- `OUT[0..n)`. -/
def State.outBytes (s : State) (n : Nat) : List Byte := (List.range n).map s.outByte

/-- The input byte sequence of a command, `IN[0..LEN)` (R94). -/
def State.input (s : State) : List Byte := s.inBytes s.len.toNat

/-- The valid part of OUT, `OUT[0..OUT_LEN)` (R34). -/
def State.output (s : State) : List Byte := s.outBytes s.outLen.toNat

/-- `n > CAP` with `n = LEN`: the check every command but MOVE makes first (60_exceptions.md R193 a). -/
def State.inputTooLong (s : State) : Bool := decide (s.cfg.cap < s.len.toNat)

/-- `n > CAP` for a result of `n` bytes: the check of BLDDG and BLDPKT (60_exceptions.md R194). -/
def State.outputTooLong (s : State) (n : Nat) : Bool := decide (s.cfg.cap < n)

/-- A host write of `v` to a register of `w` bits keeps `v[w-1:0]` (R22). -/
def narrow (w : Nat) (v : Word) : BitVec w := v.setWidth w

/-- A host read returns the held value with zeros above (R22). -/
def widen {w : Nat} (v : BitVec w) : Word := v.setWidth 32

/-- The signed reading that software gives a sequence number (10_state.md R24, R50; log 15). The block never uses it. -/
def signedReading (p : Half) : Int := if p < 0x8000 then p.toNat else (p.toNat : Int) - 65536

end Sys2Proof.Machine
end

