-- ==== Sys2Proof/Machine/Buffer.lean ====
section
/-! DEFINITION. The buffer command: MOVE (44_move.md). -/

namespace Sys2Proof.Machine

/-- MOVE, R185: `IN[0..m) <- OUT[0..m)` and `LEN <- m` for `m = OUT_LEN`. It makes no check and raises nothing. -/
def execMove (s : State) : Host.Outcome State Fault Refusal :=
  complete ((s.fillInput s.output).setLen s.outLen)

end Sys2Proof.Machine
end

