-- ==== Sys2Proof/Machine/Arith.lean ====
section
/-! DEFINITION. The checksum arithmetic of 00_scope.md R10. The sum is exact, on natural numbers; narrowing to 16 bits happens
only in `fold` (40_checksum.md section 2). -/

namespace Sys2Proof.Machine

/-- `wsum(B, n)` of R10 for a buffer of `n` bytes: the sum of its big-endian 16-bit words, a missing last byte being zero. -/
def wsum : List Byte → Nat
  | [] => 0
  | [a] => a.toNat * 256
  | a :: b :: rest => (a.toNat * 256 + b.toNat) + wsum rest

/-- One round of the loop of R10: `s[15:0] + floor(s / 65536)`. -/
def foldStep (s : Nat) : Nat := s % 65536 + s / 65536

/-- At most `fuel` rounds of the loop of R10, stopping as soon as `s` is not above `0xFFFF`. -/
def foldRounds : Nat → Nat → Nat
  | 0, s => s
  | fuel + 1, s => if 0xFFFF < s then foldRounds fuel (foldStep s) else s

/-- `fold(s)` of R10. A round that happens makes `s` smaller, so `s` rounds are enough for every `s`. -/
def fold (s : Nat) : Nat := foldRounds s s

/-- `cksum(B, n) = ~fold(wsum(B, n))` (R10). -/
def cksum (bs : List Byte) : Half := ~~~ BitVec.ofNat 16 (fold (wsum bs))

end Sys2Proof.Machine
end

