-- ==== Sys2Proof/Machine/Checksum.lean ====
section
/-! DEFINITION. The Checksum Engine: CSUM, ZCF.IP, ZCF.ICMP (40_checksum.md). -/

namespace Sys2Proof.Machine

/-- CSUM, R110. -/
def execCsum (s : State) : Host.Outcome State Fault Refusal :=
  if s.inputTooLong then raise .badLength s
  else complete (s.setCsumRes (cksum s.input))

/-- `zeroChecksumField` for a field at bytes `off`, `off + 1` (R119, R120): a copy of the input with the field zero; refused
when the input is too short to hold the field. -/
def zeroChecksumField (off : Nat) (s : State) : Host.Outcome State Fault Refusal :=
  if s.inputTooLong then raise .badLength s
  else if s.len.toNat < off + 2 then raise .badLength s
  else complete (s.putOutput (splice s.input off [0x00, 0x00]))

/-- ZCF.IP, R119: offset 10. -/
def execZcfIp (s : State) : Host.Outcome State Fault Refusal := zeroChecksumField 10 s

/-- ZCF.ICMP, R120: offset 2. -/
def execZcfIcmp (s : State) : Host.Outcome State Fault Refusal := zeroChecksumField 2 s

end Sys2Proof.Machine
end

