-- ==== Sys2Proof/Machine/Datagram.lean ====
section
/-! DEFINITION. The Datagram Builder: BLDDG (41_datagram.md; layout 30_encoding.md R105). -/

namespace Sys2Proof.Machine

/-- The ICMP Echo Request with its checksum field zero: type 8, code 0, checksum, identifier, sequence, payload (R140). -/
def echoRequest (id seq : Half) (payload : List Byte) : List Byte :=
  [0x08, 0x00, 0x00, 0x00] ++ bytes2 id ++ bytes2 seq ++ payload

/-- BLDDG, R140. -/
def execBlddg (s : State) : Host.Outcome State Fault Refusal :=
  if s.inputTooLong then raise .badLength s
  else if s.outputTooLong (8 + s.len.toNat) then raise .overflow s
  else
    let t := echoRequest s.operands.icmpId s.operands.icmpSeq s.input
    let c := cksum t
    complete ((s.putOutput (splice t 2 (bytes2 c))).setCsumRes c)

end Sys2Proof.Machine
end

