-- ==== Sys2Proof/Machine/Packet.lean ====
section
/-! DEFINITION. The Packet Builder: BLDPKT (42_packet.md; layout 30_encoding.md R99 to R104). -/

namespace Sys2Proof.Machine

/-- `ihl` of R150: 5 words without options, 6 with (R151). -/
def ihlOf (opt : Byte) : Nat := if opt = 0 then 5 else 6

/-- `H` of R150: 20 or 24 bytes. -/
def headerLen (opt : Byte) : Nat := 4 * ihlOf opt

/-- The flags and fragment-offset field for a datagram of `n` bytes, the legacy estimate of R154. -/
def fragmentField (n : Nat) : Half := BitVec.ofNat 16 (177 * (n / 1416))

/-- Header bytes 20 to 23, present only with options: the option byte and three zero bytes (R153). -/
def optionBytes (opt : Byte) : List Byte := if opt = 0 then [] else [opt, 0x00, 0x00, 0x00]

/-- The IPv4 header of R150 for a datagram of `n` bytes, with its checksum field zero. -/
def ipHeader (o : OperandRegs) (n : Nat) : List Byte :=
  [BitVec.ofNat 8 (0x40 + ihlOf o.ipOpt), 0x00] ++ bytes2 (BitVec.ofNat 16 (headerLen o.ipOpt + n))
    ++ bytes2 o.ipId ++ bytes2 (fragmentField n) ++ [o.ipTtl, o.ipProto] ++ [0x00, 0x00]
    ++ bytes4 o.ipSrc ++ bytes4 o.ipDst ++ optionBytes o.ipOpt

/-- BLDPKT, R150. The datagram bytes are not part of the header checksum (R155). -/
def execBldpkt (s : State) : Host.Outcome State Fault Refusal :=
  if s.inputTooLong then raise .badLength s
  else if s.outputTooLong (headerLen s.operands.ipOpt + s.len.toNat) then raise .overflow s
  else
    let t := ipHeader s.operands s.len.toNat
    let c := cksum t
    complete ((s.putOutput (splice t 10 (bytes2 c) ++ s.input)).setCsumRes c)

end Sys2Proof.Machine
end

