-- ==== Sys2Proof/Machine/Unpack.lean ====
section
/-! DEFINITION. The field unpacking half of the Decoder: DECODE (43_decode.md). -/

namespace Sys2Proof.Machine

/-- `B[0][7:4]`, the version nibble (30_encoding.md R100). -/
def versionNibble (b : Byte) : BitVec 4 := b.extractLsb' 4 4

/-- `B[0][3:0]`, the IHL nibble (R100). -/
def ihlNibble (b : Byte) : BitVec 4 := b.extractLsb' 0 4

/-- The fifteen fields of a buffer (R170). The ICMP header is always taken at byte 20 (R173); the type of service, byte 1, goes
nowhere (R174 e). -/
def unpack (f : Nat → Byte) : DecodeRegs where
  ver := versionNibble (f 0)
  ihl := ihlNibble (f 0)
  totLen := memRead2 f 2
  ipId := memRead2 f 4
  frag := memRead2 f 6
  ttl := f 8
  proto := f 9
  hcsum := memRead2 f 10
  src := memRead4 f 12
  dst := memRead4 f 16
  icmpType := f 20
  icmpCode := f 21
  icsum := memRead2 f 22
  icmpId := memRead2 f 24
  icmpSeq := memRead2 f 26

/-- DECODE, R170: the length check comes before the version check (R171), and nothing else is checked (R172). -/
def execDecode (s : State) : Host.Outcome State Fault Refusal :=
  if s.inputTooLong then raise .badLength s
  else if s.len.toNat < 28 then raise .malformedReply s
  else if versionNibble (s.inByte 0) ≠ 4 then raise .malformedReply s
  else complete (s.setDec (unpack s.inByte))

end Sys2Proof.Machine
end

