-- ==== Sys2Proof/Machine/Dispatch.lean ====
section
/-! DEFINITION. Each command's meaning, one arm per row of spec/opcode_table.json (30_encoding.md R91). -/

namespace Sys2Proof.Machine

def exec (i : Instr) (s : State) : Host.Outcome State Fault Refusal :=
  match i with
  | .csum => Sys2Proof.Machine.execCsum s
  | .zcfIp => Sys2Proof.Machine.execZcfIp s
  | .zcfIcmp => Sys2Proof.Machine.execZcfIcmp s
  | .blddg => Sys2Proof.Machine.execBlddg s
  | .bldpkt => Sys2Proof.Machine.execBldpkt s
  | .decode => Sys2Proof.Machine.execDecode s
  | .move => Sys2Proof.Machine.execMove s

end Sys2Proof.Machine
end

