-- ==== Sys2Proof/Machine/Bus.lean ====
section
/-! DEFINITION. The host's side: the address map, what each transaction does and answers, and one event of the outside world
(20_memory.md; 70_reset_and_hazards.md R220). -/

namespace Sys2Proof.Machine

/-! ## The address map -/

/-- The offset column of 20_memory.md R63. -/
def Reg.offset : Reg → Nat
  | .cmd => 0x000
  | .status => 0x004
  | .len => 0x008
  | .outLen => 0x00C
  | .csumRes => 0x010
  | .icmpId => 0x014
  | .icmpSeq => 0x018
  | .ipId => 0x01C
  | .ipTtl => 0x020
  | .ipProto => 0x024
  | .ipSrc => 0x028
  | .ipDst => 0x02C
  | .ipOpt => 0x030
  | .decVer => 0x040
  | .decIhl => 0x044
  | .decTotLen => 0x048
  | .decIpId => 0x04C
  | .decFrag => 0x050
  | .decTtl => 0x054
  | .decProto => 0x058
  | .decHcsum => 0x05C
  | .decSrc => 0x060
  | .decDst => 0x064
  | .decType => 0x068
  | .decCode => 0x06C
  | .decIcsum => 0x070
  | .decIcmpId => 0x074
  | .decIcmpSeq => 0x078

/-- The access column of R63. -/
def Reg.access : Reg → Access
  | .cmd => .writeOnly
  | .len | .icmpId | .icmpSeq | .ipId | .ipTtl | .ipProto | .ipSrc | .ipDst | .ipOpt => .readWrite
  | .status | .outLen | .csumRes
  | .decVer | .decIhl | .decTotLen | .decIpId | .decFrag | .decTtl | .decProto | .decHcsum | .decSrc | .decDst
  | .decType | .decCode | .decIcsum | .decIcmpId | .decIcmpSeq => .readOnly

/-- The rows of R63. -/
def allRegs : List Reg :=
  [.cmd, .status, .len, .outLen, .csumRes,
   .icmpId, .icmpSeq, .ipId, .ipTtl, .ipProto, .ipSrc, .ipDst, .ipOpt,
   .decVer, .decIhl, .decTotLen, .decIpId, .decFrag, .decTtl, .decProto, .decHcsum, .decSrc, .decDst,
   .decType, .decCode, .decIcsum, .decIcmpId, .decIcmpSeq]

/-- The register at exactly this offset (R63). -/
def regAt (a : Nat) : Option Reg := allRegs.find? (fun r => decide (Reg.offset r = a))

/-- Offset of `IN[0]` (R61, R64). -/
def inWindow : Nat := 0x10000

/-- Offset of `OUT[0]` (R61, R65). -/
def outWindow : Nat := 0x20000

/-- What stands at an offset of the host's address space (R61). -/
inductive Location where
  | register (r : Reg)
  | inByte (i : Nat)
  | outByte (i : Nat)
  | unmapped
deriving DecidableEq, Repr

/-- The whole map of R61 to R65 for a block with `cap` bytes in each buffer. A window has 0x10000 offsets, of which the first
`cap` are mapped. -/
def locate (cap a : Nat) : Location :=
  if inWindow ≤ a ∧ a < inWindow + 0x10000 ∧ a - inWindow < cap then .inByte (a - inWindow)
  else if outWindow ≤ a ∧ a < outWindow + 0x10000 ∧ a - outWindow < cap then .outByte (a - outWindow)
  else match regAt a with
    | some r => .register r
    | none => .unmapped

/-! ## Registers as the bus sees them (10_state.md R22) -/

/-- `HostRead32` of a register: its value zero-extended; CMD reads as 0 (R31, R66). -/
def State.readReg (s : State) : Reg → Word
  | .cmd => 0
  | .status => statusWord s.err
  | .len => widen s.len
  | .outLen => widen s.outLen
  | .csumRes => widen s.csumRes
  | .icmpId => widen s.operands.icmpId
  | .icmpSeq => widen s.operands.icmpSeq
  | .ipId => widen s.operands.ipId
  | .ipTtl => widen s.operands.ipTtl
  | .ipProto => widen s.operands.ipProto
  | .ipSrc => s.operands.ipSrc
  | .ipDst => s.operands.ipDst
  | .ipOpt => widen s.operands.ipOpt
  | .decVer => widen s.dec.ver
  | .decIhl => widen s.dec.ihl
  | .decTotLen => widen s.dec.totLen
  | .decIpId => widen s.dec.ipId
  | .decFrag => widen s.dec.frag
  | .decTtl => widen s.dec.ttl
  | .decProto => widen s.dec.proto
  | .decHcsum => widen s.dec.hcsum
  | .decSrc => s.dec.src
  | .decDst => s.dec.dst
  | .decType => widen s.dec.icmpType
  | .decCode => widen s.dec.icmpCode
  | .decIcsum => widen s.dec.icsum
  | .decIcmpId => widen s.dec.icmpId
  | .decIcmpSeq => widen s.dec.icmpSeq

/-- A host write of a register that holds something: a writable one keeps the low bits of its width, a read-only one keeps what
it held (R22, R66). CMD holds nothing, so nothing is stored for it. -/
def State.writeReg (s : State) (r : Reg) (v : Word) : State :=
  match r with
  | .len => s.setLen (narrow 16 v)
  | .icmpId => s.setOperands { s.operands with icmpId := narrow 16 v }
  | .icmpSeq => s.setOperands { s.operands with icmpSeq := narrow 16 v }
  | .ipId => s.setOperands { s.operands with ipId := narrow 16 v }
  | .ipTtl => s.setOperands { s.operands with ipTtl := narrow 8 v }
  | .ipProto => s.setOperands { s.operands with ipProto := narrow 8 v }
  | .ipSrc => s.setOperands { s.operands with ipSrc := v }
  | .ipDst => s.setOperands { s.operands with ipDst := v }
  | .ipOpt => s.setOperands { s.operands with ipOpt := narrow 8 v }
  | .cmd | .status | .outLen | .csumRes
  | .decVer | .decIhl | .decTotLen | .decIpId | .decFrag | .decTtl | .decProto | .decHcsum | .decSrc | .decDst
  | .decType | .decCode | .decIcsum | .decIcmpId | .decIcmpSeq => s

/-! ## Commands and transactions -/

/-- A word written to CMD (10_state.md R31; 30_encoding.md R92): the command it encodes runs to its end; an illegal word raises
IllegalCommand (60_exceptions.md R192). -/
def runCommandWord (w : Word) (s : State) : Host.Outcome State Fault Refusal :=
  match decode w with
  | .ok i => exec i s
  | .error _ => raise .illegalCommand s

/-- `HostWrite32` (R60, R63, R67, R68). -/
def hostWrite32 (a : Nat) (v : Word) (s : State) : Host.Outcome State Fault Refusal :=
  match locate s.cfg.cap a with
  | .register .cmd => andThen (runCommandWord v s) (fun t => t.respond .ok)
  | .register r => .next ((s.writeReg r v).respond .ok)
  | .inByte _ | .outByte _ | .unmapped => .next (s.respond .busError)

/-- `HostRead32` (R60, R63, R66, R67). -/
def hostRead32 (a : Nat) (s : State) : Host.Outcome State Fault Refusal :=
  match locate s.cfg.cap a with
  | .register r => .next (s.respond (.okWord (s.readReg r)))
  | .inByte _ | .outByte _ | .unmapped => .next (s.respond .busError)

/-- `HostWrite8` (R60, R64, R65, R66, R67): OUT is read-only to the host. -/
def hostWrite8 (a : Nat) (b : Byte) (s : State) : Host.Outcome State Fault Refusal :=
  match locate s.cfg.cap a with
  | .inByte i => .next ((s.setInByte i b).respond .ok)
  | .outByte _ => .next (s.respond .ok)
  | .register _ | .unmapped => .next (s.respond .busError)

/-- `HostRead8` (R60, R64, R65, R67). -/
def hostRead8 (a : Nat) (s : State) : Host.Outcome State Fault Refusal :=
  match locate s.cfg.cap a with
  | .inByte i => .next (s.respond (.okByte (s.inByte i)))
  | .outByte i => .next (s.respond (.okByte (s.outByte i)))
  | .register _ | .unmapped => .next (s.respond .busError)

/-- One transaction, wholly (R60). -/
def transact (t : Transaction) (s : State) : Host.Outcome State Fault Refusal :=
  match t with
  | .write32 a v => hostWrite32 a v s
  | .read32 a => hostRead32 a s
  | .write8 a b => hostWrite8 a b s
  | .read8 a => hostRead8 a s

/-- One event of the outside world: a transaction (R60) or the reset input (70_reset_and_hazards.md R220). -/
def perform (e : HostEvent) (s : State) : Host.Outcome State Fault Refusal :=
  match e with
  | .bus t => transact t s
  | .reset => .next s.applyReset

/-- Transactions in issue order (R74). -/
def performAll : List HostEvent → State → Host.Outcome State Fault Refusal
  | [], s => .next s
  | e :: es, s =>
    match perform e s with
    | .next t => performAll es t
    | .fault r => .fault r
    | .refused r => .refused r

/-- The next event the host has for the block; the block does nothing by itself, so with no event it stays as it is (R60;
log 5). -/
def nextEvent (s : State) : Host.Outcome State Fault Refusal :=
  match s.pending with
  | [] => .next s
  | e :: es => perform e (s.setPending es)

/-- The host's next event is a write of `w` to CMD (log 4). -/
def State.issueNext (s : State) (w : Word) : State :=
  s.setPending (.bus (.write32 (Reg.offset .cmd) w) :: s.pending)

end Sys2Proof.Machine
end

