-- ==== Sys2Proof/Machine/HostProgram.lean ====
section
/-! DEFINITION. The notation for host programs (30_encoding.md R96 to R98): each line and each pseudo-instruction as the
transactions it stands for. A host program is a finite list of transactions without branches (45_absent_classes.md R187). -/

namespace Sys2Proof.Machine

/-- `WR <reg>, <value>` (R96). -/
def wr (r : Reg) (v : Word) : HostEvent := .bus (.write32 (Reg.offset r) v)

/-- `RD <reg>` (R96). -/
def rd (r : Reg) : HostEvent := .bus (.read32 (Reg.offset r))

/-- `WB IN[<i>], <byte>` (R96). -/
def wb (i : Nat) (b : Byte) : HostEvent := .bus (.write8 (inWindow + i) b)

/-- `RB IN[<i>]` (R96). -/
def rbIn (i : Nat) : HostEvent := .bus (.read8 (inWindow + i))

/-- `RB OUT[<i>]` (R96). -/
def rbOut (i : Nat) : HostEvent := .bus (.read8 (outWindow + i))

/-- `CMD.W <value>`: a raw command word (R97). -/
def cmdW (w : Word) : HostEvent := .bus (.write32 (Reg.offset .cmd) w)

/-- `CMD <mnemonic>` (R96). -/
def cmd (i : Instr) : HostEvent := cmdW (encode i)

/-- The byte writes of `LDIN`, from index `i` on (R97). -/
def loadFrom : Nat → List Byte → List HostEvent
  | _, [] => []
  | i, b :: bs => wb i b :: loadFrom (i + 1) bs

/-- `LDIN b0 b1 ... b(n-1)` (R97). -/
def ldin (bs : List Byte) : List HostEvent := loadFrom 0 bs ++ [wr .len (BitVec.ofNat 32 bs.length)]

/-- `RDOUT n` (R97). -/
def rdout (n : Nat) : List HostEvent := (List.range n).map rbOut

/-- `SETADDR <reg>, a.b.c.d` (R97; R102). -/
def setaddr (r : Reg) (a b c d : Byte) : HostEvent := wr r (a ++ b ++ c ++ d)

end Sys2Proof.Machine
end

