-- ==== Sys2Proof/Machine/Step.lean ====
section
/-! DEFINITION. One step of the machine: the next event of the outside world. The block fetches nothing (10_state.md R21); its
program is the host's list of transactions, placed in State.pending from outside (log 4). -/

namespace Sys2Proof.Machine

def step (s : State) : Host.Outcome State Fault Refusal := nextEvent s

/-- The state in which the very next step is the host's write to CMD of the command word whose `nbits` bits are `w`. -/
def State.withFetchWord (s : State) (nbits w : Nat) : State := s.issueNext (BitVec.ofNat 32 (w % 2 ^ nbits))

end Sys2Proof.Machine
end

