-- ==== Sys2Proof/Safety.lean ====
section
/-! DEFINITION. What the claims of the block are stated with: the invariant every step keeps, the reachable states, and when a
command's input is wholly known. -/

namespace Sys2Proof.Machine

/-- What holds of the block in every state a run reaches. -/
structure State.Inv (s : State) : Prop where
  /-- CAP is within its bounds (00_scope.md R5). -/
  legal : s.cfg.Legal
  /-- IN is in canonical form. -/
  inWf : Memory.wf s.inBuf
  /-- OUT is in canonical form. -/
  outWf : Memory.wf s.outBuf
  /-- IN has the bytes `IN[0]` to `IN[CAP-1]` only (10_state.md R51; 20_memory.md R73). -/
  inWithin : ∀ c ∈ s.inBuf, c.1 < s.cfg.cap
  /-- OUT has the bytes `OUT[0]` to `OUT[CAP-1]` only (10_state.md R52; 20_memory.md R73). -/
  outWithin : ∀ c ∈ s.outBuf, c.1 < s.cfg.cap
  /-- "Invariant: `OUT_LEN <= CAP` always" (10_state.md R34). -/
  outLenFits : s.outLen.toNat ≤ s.cfg.cap
  /-- The valid bytes of OUT have been written since the last reset (R34, R52). -/
  outputWritten : ∀ i, i < s.outLen.toNat → (Memory.read s.outBuf i).isSome = true
  /-- ERR values 5 to 15 are never produced (10_state.md R32; 60_exceptions.md R190). -/
  errLegal : s.err.toNat ≤ 4
  /-- The DEC registers are as reset left them, or a DECODE that completed filled them, and then DEC_VER is 4 (R36). -/
  decLegal : s.dec = DecodeRegs.reset ∨ s.dec.ver = 4

/-- The states a block with a legal CAP reaches, whatever the host does: it starts after power-on with any finite list of
events still to come (70_reset_and_hazards.md R234). -/
inductive Reachable : State → Prop where
  | start (c : Config) (es : List HostEvent) : c.Legal → Reachable ((State.powerOn c).setPending es)
  | step (s t : State) : Reachable s → Machine.step s = .next t → Reachable t

/-- The last command completed (60_exceptions.md R190), or none has run since reset. -/
def State.completed (s : State) : Bool := decide (s.err = errOk)

/-- Every byte of a command's input has been written since the last reset, so that no unspecified byte is read
(70_reset_and_hazards.md R221, R231). -/
def State.inputWritten (s : State) : Bool :=
  (List.range s.len.toNat).all (fun i => (Memory.read s.inBuf i).isSome)

end Sys2Proof.Machine
end

