-- ==== Sys2Proof/WellFormed.lean ====
section
/-! DEFINITION. Well-formedness of what is given to the machine. A command has no operand (30_encoding.md R94), so every
command is well-formed; a transaction's offset has 18 bits (20_memory.md R61, 30_encoding.md R98); CAP has its bounds
(00_scope.md R5). The bus does not rely on the offset check: an offset it does not know gets BusError (R62, R67). -/

namespace Sys2Proof

/-- R94: nothing to check; one line per command so that a command with an operand could not be added unseen. -/
def Instr.wellFormed : Instr → Bool
  | .csum | .zcfIp | .zcfIcmp | .blddg | .bldpkt | .decode | .move => true

/-- R98: the offset is an 18-bit offset. -/
def Transaction.wellFormed : Transaction → Bool
  | .write32 a _ | .read32 a | .write8 a _ | .read8 a => decide (a < 2 ^ 18)

/-- A reset carries nothing to check. -/
def HostEvent.wellFormed : HostEvent → Bool
  | .bus t => t.wellFormed
  | .reset => true

/-- R5. -/
def Config.wellFormed (c : Config) : Bool := decide c.Legal

end Sys2Proof
end

