-- ==== Sys2Proof/Certificates/Slice0/Obligations.lean ====
section
/-! DEFINITION. The statements for the provers, each from the numbered rules of spec/. The definitions before them under
Sys2Proof.Spec only write down tables and conditions of the spec, in the spec's own numbers, for the statements to use. -/

open Sys2Proof Sys2Proof.Machine

/-! ## What the statements are written with -/

/-- One row of the table of 20_memory.md R63. -/
structure Sys2Proof.Spec.RegisterRow where
  offset : Nat
  reg : Reg
  /-- Bits held; CMD holds none. -/
  bits : Nat
  access : Access
  /-- The value a host read returns after reset. -/
  reset : Nat
deriving DecidableEq, Repr

/-- The table of 20_memory.md R63, row by row. -/
def Sys2Proof.Spec.registerTable : List Sys2Proof.Spec.RegisterRow :=
  [⟨0x000, .cmd, 0, .writeOnly, 0⟩, ⟨0x004, .status, 4, .readOnly, 0⟩, ⟨0x008, .len, 16, .readWrite, 0⟩,
   ⟨0x00C, .outLen, 16, .readOnly, 0⟩, ⟨0x010, .csumRes, 16, .readOnly, 0⟩, ⟨0x014, .icmpId, 16, .readWrite, 0⟩,
   ⟨0x018, .icmpSeq, 16, .readWrite, 0⟩, ⟨0x01C, .ipId, 16, .readWrite, 0⟩, ⟨0x020, .ipTtl, 8, .readWrite, 64⟩,
   ⟨0x024, .ipProto, 8, .readWrite, 1⟩, ⟨0x028, .ipSrc, 32, .readWrite, 0x7F000001⟩,
   ⟨0x02C, .ipDst, 32, .readWrite, 0x7F000001⟩, ⟨0x030, .ipOpt, 8, .readWrite, 0⟩] ++
  [⟨0x040, .decVer, 4, .readOnly, 0⟩, ⟨0x044, .decIhl, 4, .readOnly, 0⟩, ⟨0x048, .decTotLen, 16, .readOnly, 0⟩,
   ⟨0x04C, .decIpId, 16, .readOnly, 0⟩, ⟨0x050, .decFrag, 16, .readOnly, 0⟩, ⟨0x054, .decTtl, 8, .readOnly, 0⟩,
   ⟨0x058, .decProto, 8, .readOnly, 0⟩, ⟨0x05C, .decHcsum, 16, .readOnly, 0⟩, ⟨0x060, .decSrc, 32, .readOnly, 0⟩,
   ⟨0x064, .decDst, 32, .readOnly, 0⟩, ⟨0x068, .decType, 8, .readOnly, 0⟩, ⟨0x06C, .decCode, 8, .readOnly, 0⟩,
   ⟨0x070, .decIcsum, 16, .readOnly, 0⟩, ⟨0x074, .decIcmpId, 16, .readOnly, 0⟩, ⟨0x078, .decIcmpSeq, 16, .readOnly, 0⟩]

/-- What each register of R63 holds, as 10_state.md R23 to R50 name it; CMD holds nothing (R31). -/
def Sys2Proof.Spec.held (s : State) : Reg → Nat
  | .cmd => 0
  | .status => s.err.toNat
  | .len => s.len.toNat
  | .outLen => s.outLen.toNat
  | .csumRes => s.csumRes.toNat
  | .icmpId => s.operands.icmpId.toNat
  | .icmpSeq => s.operands.icmpSeq.toNat
  | .ipId => s.operands.ipId.toNat
  | .ipTtl => s.operands.ipTtl.toNat
  | .ipProto => s.operands.ipProto.toNat
  | .ipSrc => s.operands.ipSrc.toNat
  | .ipDst => s.operands.ipDst.toNat
  | .ipOpt => s.operands.ipOpt.toNat
  | .decVer => s.dec.ver.toNat
  | .decIhl => s.dec.ihl.toNat
  | .decTotLen => s.dec.totLen.toNat
  | .decIpId => s.dec.ipId.toNat
  | .decFrag => s.dec.frag.toNat
  | .decTtl => s.dec.ttl.toNat
  | .decProto => s.dec.proto.toNat
  | .decHcsum => s.dec.hcsum.toNat
  | .decSrc => s.dec.src.toNat
  | .decDst => s.dec.dst.toNat
  | .decType => s.dec.icmpType.toNat
  | .decCode => s.dec.icmpCode.toNat
  | .decIcsum => s.dec.icsum.toNat
  | .decIcmpId => s.dec.icmpId.toNat
  | .decIcmpSeq => s.dec.icmpSeq.toNat

/-- `t` is what the reset input leaves of `s`: the table of 10_state.md section 7, with CAP and the host's side as they were. -/
def Sys2Proof.Spec.resetOf (s t : State) : Prop :=
  t.operands = ⟨0x0000, 0x0000, 0x0000, 64, 1, 0x7F000001, 0x7F000001, 0⟩ ∧
  t.err = 0 ∧ t.len = 0 ∧ t.outLen = 0 ∧ t.csumRes = 0x0000 ∧
  t.dec = ⟨0, 0, 0, 0, 0, 0, 0, 0, 0, 0, 0, 0, 0, 0, 0⟩ ∧
  t.cfg = s.cfg ∧ t.pending = s.pending ∧ t.responses = s.responses ∧ t.inBuf = [] ∧ t.outBuf = [] ∧
  (∀ r, t.readReg r = (State.powerOn s.cfg).readReg r)

/-- Offset `a` is a register's (R63). -/
def Sys2Proof.Spec.isRegister (a : Nat) : Prop := ∃ row ∈ Sys2Proof.Spec.registerTable, row.offset = a

/-- Offset `a` is a byte of IN or of OUT (R64, R65). -/
def Sys2Proof.Spec.isBufferByte (cap a : Nat) : Prop :=
  (0x10000 ≤ a ∧ a < 0x10000 + cap) ∨ (0x20000 ≤ a ∧ a < 0x20000 + cap)

/-- Offset `a` lies in the IN or the OUT window, mapped there or not (R61). -/
def Sys2Proof.Spec.inWindows (a : Nat) : Prop := 0x10000 ≤ a ∧ a ≤ 0x2FFFF

/-- The four cases of 20_memory.md R67. -/
def Sys2Proof.Spec.badAccess (cap : Nat) : Transaction → Prop
  | .read32 a | .write32 a _ =>
    ¬ (Sys2Proof.Spec.isRegister a ∨ Sys2Proof.Spec.isBufferByte cap a) ∨ Sys2Proof.Spec.inWindows a ∨ a % 4 ≠ 0
  | .read8 a | .write8 a _ =>
    ¬ (Sys2Proof.Spec.isRegister a ∨ Sys2Proof.Spec.isBufferByte cap a) ∨ a ≤ 0x7F

/-- The one's-complement addition `a (+) b` of 40_checksum.md R115. -/
def Sys2Proof.Spec.onesAdd (a b : Nat) : Nat := fold (a + b)

/-- What a command reads, as its rule names it: the two states give the command the same operands. -/
def Sys2Proof.Spec.sameOperands (i : Instr) (s t : State) : Prop :=
  s.cfg = t.cfg ∧ match i with
  | .csum | .zcfIp | .zcfIcmp => s.len = t.len ∧ ∀ k, k < s.len.toNat → s.inByte k = t.inByte k
  | .blddg => s.len = t.len ∧ (∀ k, k < s.len.toNat → s.inByte k = t.inByte k) ∧
      s.operands.icmpId = t.operands.icmpId ∧ s.operands.icmpSeq = t.operands.icmpSeq
  | .bldpkt => s.len = t.len ∧ (∀ k, k < s.len.toNat → s.inByte k = t.inByte k) ∧
      s.operands.ipId = t.operands.ipId ∧ s.operands.ipTtl = t.operands.ipTtl ∧
      s.operands.ipProto = t.operands.ipProto ∧ s.operands.ipSrc = t.operands.ipSrc ∧
      s.operands.ipDst = t.operands.ipDst ∧ s.operands.ipOpt = t.operands.ipOpt
  | .decode => s.len = t.len ∧ ∀ k, k < 28 → k < s.len.toNat → s.inByte k = t.inByte k
  | .move => s.outLen = t.outLen ∧ ∀ k, k < s.outLen.toNat → s.outByte k = t.outByte k

/-- What a command that completed wrote, as its rule names it. -/
def Sys2Proof.Spec.sameResults (i : Instr) (s t : State) : Prop :=
  match i with
  | .csum => s.csumRes = t.csumRes
  | .zcfIp | .zcfIcmp => s.outLen = t.outLen ∧ s.output = t.output
  | .blddg | .bldpkt => s.outLen = t.outLen ∧ s.output = t.output ∧ s.csumRes = t.csumRes
  | .decode => s.dec = t.dec
  | .move => s.len = t.len ∧ s.input = t.input

/-! ## The checksum arithmetic -/

/-- 00_scope.md R10: the word sum, the fold and the checksum. -/
def Obligations.WordSumFoldAndChecksumFollowTheRule : Prop :=
  (∀ bs : List Byte, wsum bs = ((List.range ((bs.length + 1) / 2)).map (fun k =>
    (bs.getD (2 * k) 0).toNat * 256 + (if 2 * k + 1 < bs.length then (bs.getD (2 * k + 1) 0).toNat else 0))).sum) ∧
  wsum [] = 0 ∧
  (∀ s, s ≤ 0xFFFF → fold s = s) ∧
  (∀ s, 0xFFFF < s → fold s = fold (s % 65536 + s / 65536)) ∧
  (∀ s, fold s ≤ 0xFFFF) ∧
  (∀ bs, (cksum bs).toNat = 0xFFFF - fold (wsum bs))

/-- 40_checksum.md R113: the closed form of the fold. -/
def Obligations.FoldHasTheClosedForm : Prop :=
  fold 0 = 0 ∧
  (∀ s, 0 < s → fold s = (s - 1) % 65535 + 1 ∧ 1 ≤ fold s ∧ fold s ≤ 0xFFFF) ∧
  (∀ s, fold s % 65535 = s % 65535) ∧
  (∀ s, fold s = 0 ↔ s = 0) ∧
  (∀ s, fold s = 0xFFFF ↔ 0 < s ∧ 65535 ∣ s) ∧
  (∀ q r, r < 65536 → foldStep (q * 65536 + r) = q + r ∧ q * 65536 + r = (q + r) + q * 65535 ∧
    (0 < q * 65536 + r → 0 < q + r) ∧ (0 < q → q + r < q * 65536 + r))

/-- 40_checksum.md R114: two fold steps suffice. -/
def Obligations.TwoFoldStepsSuffice : Prop :=
  (∀ s, s < 2 ^ 32 → foldStep s ≤ 0x1FFFE ∧ foldStep (foldStep s) ≤ 0xFFFF ∧
    fold s = foldStep (foldStep s) ∧ fold s = foldRounds 2 s) ∧
  (∀ bs : List Byte, bs.length ≤ 65535 → wsum bs < 2 ^ 31)

/-- 40_checksum.md R115: order and grouping do not matter. -/
def Obligations.OnesComplementAdditionIsOrderFree : Prop :=
  (∀ a b, a ≤ 0xFFFF → b ≤ 0xFFFF → Sys2Proof.Spec.onesAdd a b = Sys2Proof.Spec.onesAdd b a) ∧
  (∀ a b c, a ≤ 0xFFFF → b ≤ 0xFFFF → c ≤ 0xFFFF →
    Sys2Proof.Spec.onesAdd (Sys2Proof.Spec.onesAdd a b) c = Sys2Proof.Spec.onesAdd a (Sys2Proof.Spec.onesAdd b c)) ∧
  (∀ (w : Nat) (ws : List Nat), w ≤ 0xFFFF → (∀ x ∈ ws, x ≤ 0xFFFF) →
    fold (w :: ws).sum = ws.foldl Sys2Proof.Spec.onesAdd w) ∧
  (∀ ws vs : List Nat, ws.Perm vs → fold ws.sum = fold vs.sum)

/-- 40_checksum.md R116: the range of the checksum. -/
def Obligations.ChecksumRange : Prop :=
  (∀ c : Half, ∃ bs, cksum bs = c) ∧
  (∀ bs, cksum bs = 0xFFFF ↔ ∀ b ∈ bs, b = 0) ∧
  (∀ bs, cksum bs = 0x0000 ↔ 0 < wsum bs ∧ 65535 ∣ wsum bs) ∧
  cksum [0xFF, 0xFF] = 0x0000

/-- 40_checksum.md R117: the round-trip validity law, for buffers of even and of odd length. -/
def Obligations.RoundTripValidityLaw : Prop :=
  ∀ (bs : List Byte) (o : Nat), o % 2 = 0 → o + 2 ≤ bs.length → bs[o]? = some 0 → bs[o + 1]? = some 0 →
    cksum ((bs.set o ((cksum bs).extractLsb' 8 8)).set (o + 1) ((cksum bs).extractLsb' 0 8)) = 0x0000

/-- 40_checksum.md R118: zero padding does not change the checksum. -/
def Obligations.ZeroPaddingKeepsTheChecksum : Prop :=
  ∀ bs : List Byte,
    (bs.length % 2 = 1 → cksum (bs ++ [0]) = cksum bs) ∧
    (bs.length % 2 = 0 → cksum (bs ++ [0, 0]) = cksum bs) ∧
    (bs.length % 2 = 0 → ∀ b : Byte, wsum (bs ++ [b]) = wsum bs + b.toNat * 256)

/-! ## Command words -/

/-- 30_encoding.md R91: the seven words, written out. -/
def Obligations.OpcodeMapWordsDecode : Prop :=
  decode 0x00000001 = .ok .csum ∧ decode 0x00000002 = .ok .zcfIp ∧ decode 0x00000003 = .ok .zcfIcmp ∧
  decode 0x00000004 = .ok .blddg ∧ decode 0x00000005 = .ok .bldpkt ∧ decode 0x00000006 = .ok .decode ∧
  decode 0x00000007 = .ok .move

/-- 30_encoding.md R91, R95: a well-formed command's word decodes to it, and so it does as a table word of 32 bits. -/
def Obligations.DecodeUndoesEncode : Prop :=
  ∀ i : Instr, i.wellFormed = true →
    decode (encode i) = .ok i ∧ decodeTableWord 32 (encode i).toNat = some i

/-- 30_encoding.md R92, R93, 60_exceptions.md R192: decoding is total, and every reserved word raises IllegalCommand. -/
def Obligations.EveryWordIsACommandOrIllegal : Prop :=
  ∀ (w : Word) (s : State),
    (w.toNat / 256 ≠ 0 → decode w = .error .reservedField) ∧
    (w.toNat / 256 = 0 → w.toNat % 256 = 0 ∨ 8 ≤ w.toNat % 256 → decode w = .error .reservedOpcode) ∧
    (w.toNat / 256 ≠ 0 ∨ w.toNat % 256 = 0 ∨ 8 ≤ w.toNat % 256 → runCommandWord w s = .next { s with err := 1 }) ∧
    (w.toNat / 256 = 0 → 1 ≤ w.toNat % 256 → w.toNat % 256 ≤ 7 →
      ∃ i, encode i = w ∧ decode w = .ok i ∧ runCommandWord w s = exec i s)

/-! ## Steps -/

/-- 10_state.md R31, 20_memory.md R68: when the host's next event writes to CMD a word that decodes to `i`, the step is `i`'s
meaning, and what the step adds is that the event is taken off the list and the response is OK. -/
def Obligations.StepRunsTheDecodedCommand : Prop :=
  ∀ (s : State) (w : Word) (i : Instr) (rest : List HostEvent),
    s.pending = .bus (.write32 0x000 w) :: rest → decode w = .ok i →
    step s = andThen (exec i { s with pending := rest }) (fun t => { t with responses := t.responses ++ [.ok] })

/-- 60_exceptions.md R192, 20_memory.md R68: when the word is illegal, ERR becomes 1 and nothing else of the block changes. -/
def Obligations.StepAbortsOnAnIllegalWord : Prop :=
  ∀ (s : State) (w : Word) (e : DecodeError) (rest : List HostEvent),
    s.pending = .bus (.write32 0x000 w) :: rest → decode w = .error e →
    step s = .next { s with pending := rest, err := 1, responses := s.responses ++ [.ok] }

/-- The model's own placing of a command (log 4): after `withFetchWord` the very next step is the command's meaning. -/
def Obligations.FetchWordRunsNext : Prop :=
  ∀ (s : State) (w : Word) (i : Instr), decode w = .ok i →
    step (s.withFetchWord 32 w.toNat) = andThen (exec i s) (fun t => { t with responses := t.responses ++ [.ok] })

/-- 60_exceptions.md R191, 70_reset_and_hazards.md R233: whatever the state, a step answers a next state; nothing stops or hangs
the block. -/
def Obligations.EveryStepAnswers : Prop := ∀ s : State, ∃ t, step s = .next t

/-- 20_memory.md R60, 70_reset_and_hazards.md R220: a step with a transaction pending performs it, gives exactly one response,
and leaves the host's later events; with a reset pending it performs the reset and gives no response; without an event the
block does nothing (the last is the model's choice, log 5). -/
def Obligations.EachTransactionGetsOneResponse : Prop :=
  (∀ (s : State) (tr : Transaction) (rest : List HostEvent), s.pending = .bus tr :: rest →
    step s = transact tr { s with pending := rest } ∧
    ∃ t r, step s = .next t ∧ t.responses = s.responses ++ [r] ∧ t.pending = rest) ∧
  (∀ (s : State) (rest : List HostEvent), s.pending = .reset :: rest →
    step s = perform .reset { s with pending := rest } ∧
    ∃ t, step s = .next t ∧ t.responses = s.responses ∧ t.pending = rest) ∧
  (∀ s : State, s.pending = [] → step s = .next s)

/-! ## Reset -/

/-- 70_reset_and_hazards.md R220 and the table of 10_state.md section 7: the registers after the reset input, from any state, by
itself and as the step that takes it off the host's list (the step is the model's, log 4, 5). What IN and OUT are listed as
after it is the model's form of "unspecified" (log 2, 3). -/
def Obligations.ResetGivesTheTabledValues : Prop :=
  (∀ s : State, ∃ t, perform .reset s = .next t ∧ Sys2Proof.Spec.resetOf s t) ∧
  (∀ (s : State) (rest : List HostEvent), s.pending = .reset :: rest →
    ∃ t, step s = .next t ∧ t.pending = rest ∧ t.responses = s.responses ∧
      Sys2Proof.Spec.resetOf { s with pending := rest } t)

/-- 70_reset_and_hazards.md R223: what CSUM, BLDDG and DECODE do straight from reset, for every legal CAP; and what MOVE does
there, 44_move.md R185 (`OUT_LEN = 0` as after reset). -/
def Obligations.CommandsFromReset : Prop :=
  ∀ c : Config, c.Legal →
    exec .csum (State.powerOn c) = .next { State.powerOn c with csumRes := 0xFFFF } ∧
    (∃ t, exec .blddg (State.powerOn c) = .next t ∧ t.err = 0 ∧ t.outLen = 8 ∧ t.csumRes = 0xF7FF ∧
      t.output = [0x08, 0x00, 0xF7, 0xFF, 0x00, 0x00, 0x00, 0x00]) ∧
    exec .decode (State.powerOn c) = .next { State.powerOn c with err := 4 } ∧
    exec .move (State.powerOn c) = .next (State.powerOn c)

/-! ## CSUM -/

/-- 40_checksum.md R110: CSUM, word, completion, abort and the rule's example. -/
def Obligations.CsumComputesTheChecksum : Prop :=
  encode .csum = 0x00000001 ∧ ∀ s : State,
    (s.len.toNat ≤ s.cfg.cap →
      exec .csum s = .next { s with csumRes := cksum ((List.range s.len.toNat).map s.inByte), err := 0 }) ∧
    (s.cfg.cap < s.len.toNat → exec .csum s = .next { s with err := 2 }) ∧
    (8 ≤ s.cfg.cap → s.input = [0x08, 0x00, 0x00, 0x00, 0x00, 0x00, 0x00, 0x00] →
      exec .csum s = .next { s with csumRes := 0xF7FF, err := 0 })

/-- 40_checksum.md R111: the corner cases (a) to (h) of CSUM. -/
def Obligations.CsumCornerCases : Prop :=
  ∀ s : State, s.len.toNat ≤ s.cfg.cap → ∃ t, exec .csum s = .next t ∧ t.err = 0 ∧
    (s.len = 0 → t.csumRes = 0xFFFF) ∧
    (s.len = 1 → t.csumRes = ~~~ BitVec.ofNat 16 ((s.inByte 0).toNat * 256)) ∧
    (s.len = 1 → s.inByte 0 = 0x01 → t.csumRes = 0xFEFF) ∧
    (s.len = 1 → s.inByte 0 = 0xFF → t.csumRes = 0x00FF) ∧
    (s.len.toNat % 2 = 1 → t.csumRes = cksum (s.input ++ [0])) ∧
    (∀ u v : State, u.cfg = s.cfg → u.len = s.len → (∀ k, k < s.len.toNat → u.inByte k = s.inByte k) →
      exec .csum u = .next v → v.csumRes = t.csumRes) ∧
    ((∀ k, k < s.len.toNat → s.inByte k = 0) → t.csumRes = 0xFFFF) ∧
    (s.input = [0xFF, 0xFF] → wsum s.input = 0xFFFF ∧ t.csumRes = 0x0000) ∧
    (s.input = [0xFF, 0xFF, 0x00, 0x01] →
      wsum s.input = 0x10000 ∧ foldStep 0x10000 = 0x0001 ∧ t.csumRes = 0xFFFE) ∧
    (foldStep 0x1FFFF = 0x10000 ∧ foldStep 0x10000 = 0x0001 ∧ fold 0x1FFFF = 0x0001) ∧
    t.csumRes.toNat = 0xFFFF - fold (wsum s.input)

/-! ## ZCF.IP and ZCF.ICMP -/

/-- 40_checksum.md R119: ZCF.IP, word, completion byte by byte, aborts and the rule's example. -/
def Obligations.ZcfIpZeroesTheHeaderField : Prop :=
  encode .zcfIp = 0x00000002 ∧ ∀ s : State,
    (s.cfg.cap < s.len.toNat → exec .zcfIp s = .next { s with err := 2 }) ∧
    (s.len.toNat < 12 → exec .zcfIp s = .next { s with err := 2 }) ∧
    (12 ≤ s.len.toNat → s.len.toNat ≤ s.cfg.cap → ∃ t, exec .zcfIp s = .next t ∧
      t = { s with outBuf := t.outBuf, outLen := s.len, err := 0 } ∧
      (∀ k, k < s.len.toNat → t.outByte k = if k = 10 ∨ k = 11 then 0x00 else s.inByte k) ∧
      (∀ k, s.len.toNat ≤ k → t.outByte k = s.outByte k) ∧
      (s.inByte 10 = 0 → s.inByte 11 = 0 → t.output = s.input) ∧
      (s.input = [0x45, 0x00, 0x00, 0x1C, 0x00, 0x00, 0x00, 0x00, 0x40, 0x01, 0x7C, 0xDF,
          0x7F, 0x00, 0x00, 0x01, 0x7F, 0x00, 0x00, 0x01] →
        t.output = [0x45, 0x00, 0x00, 0x1C, 0x00, 0x00, 0x00, 0x00, 0x40, 0x01, 0x00, 0x00,
          0x7F, 0x00, 0x00, 0x01, 0x7F, 0x00, 0x00, 0x01]))

/-- 40_checksum.md R120: ZCF.ICMP, word, completion byte by byte, aborts and the rule's example. -/
def Obligations.ZcfIcmpZeroesTheMessageField : Prop :=
  encode .zcfIcmp = 0x00000003 ∧ ∀ s : State,
    (s.cfg.cap < s.len.toNat → exec .zcfIcmp s = .next { s with err := 2 }) ∧
    (s.len.toNat < 4 → exec .zcfIcmp s = .next { s with err := 2 }) ∧
    (4 ≤ s.len.toNat → s.len.toNat ≤ s.cfg.cap → ∃ t, exec .zcfIcmp s = .next t ∧
      t = { s with outBuf := t.outBuf, outLen := s.len, err := 0 } ∧
      (∀ k, k < s.len.toNat → t.outByte k = if k = 2 ∨ k = 3 then 0x00 else s.inByte k) ∧
      (∀ k, s.len.toNat ≤ k → t.outByte k = s.outByte k) ∧
      (s.input = [0x08, 0x00, 0xF7, 0xFF, 0x00, 0x00, 0x00, 0x00] →
        t.output = [0x08, 0x00, 0x00, 0x00, 0x00, 0x00, 0x00, 0x00]))

/-! ## BLDDG -/

/-- 41_datagram.md R140: BLDDG, word, completion byte by byte, aborts and the rule's example. -/
def Obligations.BlddgBuildsTheEchoRequest : Prop :=
  encode .blddg = 0x00000004 ∧ ∀ s : State, s.cfg.Legal →
    (s.cfg.cap < s.len.toNat → exec .blddg s = .next { s with err := 2 }) ∧
    (s.len.toNat ≤ s.cfg.cap → s.cfg.cap < 8 + s.len.toNat → exec .blddg s = .next { s with err := 3 }) ∧
    (8 + s.len.toNat ≤ s.cfg.cap → ∃ t, exec .blddg s = .next t ∧
      t = { s with outBuf := t.outBuf, outLen := t.outLen, csumRes := t.csumRes, err := 0 } ∧
      t.outLen.toNat = 8 + s.len.toNat ∧
      t.csumRes = cksum ([0x08, 0x00, 0x00, 0x00,
        s.operands.icmpId.extractLsb' 8 8, s.operands.icmpId.extractLsb' 0 8,
        s.operands.icmpSeq.extractLsb' 8 8, s.operands.icmpSeq.extractLsb' 0 8] ++ s.input) ∧
      t.outByte 0 = 0x08 ∧ t.outByte 1 = 0x00 ∧
      t.outByte 2 = t.csumRes.extractLsb' 8 8 ∧ t.outByte 3 = t.csumRes.extractLsb' 0 8 ∧
      t.outByte 4 = s.operands.icmpId.extractLsb' 8 8 ∧ t.outByte 5 = s.operands.icmpId.extractLsb' 0 8 ∧
      t.outByte 6 = s.operands.icmpSeq.extractLsb' 8 8 ∧ t.outByte 7 = s.operands.icmpSeq.extractLsb' 0 8 ∧
      (∀ k, k < s.len.toNat → t.outByte (8 + k) = s.inByte k) ∧
      (∀ k, 8 + s.len.toNat ≤ k → t.outByte k = s.outByte k) ∧
      (s.len = 0 → s.operands.icmpId = 0 → s.operands.icmpSeq = 0 →
        t.output = [0x08, 0x00, 0xF7, 0xFF, 0x00, 0x00, 0x00, 0x00] ∧ t.csumRes = 0xF7FF))

/-- 41_datagram.md R142: what holds of the output of every BLDDG that completes. -/
def Obligations.BlddgOutputInvariants : Prop :=
  ∀ s t : State, s.cfg.Legal → exec .blddg s = .next t → t.err = 0 →
    t.outByte 0 = 8 ∧ t.outByte 1 = 0 ∧
    memRead2 t.outByte 2 = cksum ((t.output.set 2 0).set 3 0) ∧
    cksum t.output = 0x0000 ∧
    (∀ k, k < s.len.toNat → t.outByte (8 + k) = s.inByte k)

/-- 41_datagram.md R144: BLDDG against the sequence done by hand: the host loads the header with a zero checksum and the
payload, runs CSUM, and puts CSUM_RES at bytes 2 to 3. -/
def Obligations.BlddgEqualsTheSequenceByHand : Prop :=
  ∀ s : State, s.cfg.Legal → 8 + s.len.toNat ≤ s.cfg.cap →
    ∃ t u, exec .blddg s = .next t ∧
      performAll (ldin ([0x08, 0x00, 0x00, 0x00,
        s.operands.icmpId.extractLsb' 8 8, s.operands.icmpId.extractLsb' 0 8,
        s.operands.icmpSeq.extractLsb' 8 8, s.operands.icmpSeq.extractLsb' 0 8] ++ s.input) ++ [cmd .csum]) s = .next u ∧
      u.err = 0 ∧ u.csumRes = t.csumRes ∧
      t.output = (u.input.set 2 (u.csumRes.extractLsb' 8 8)).set 3 (u.csumRes.extractLsb' 0 8) ∧
      (∀ k, 8 + s.len.toNat ≤ k → t.outByte k = s.outByte k)

/-! ## BLDPKT -/

/-- 42_packet.md R150: BLDPKT, word, completion byte by byte in both branches, aborts and the rule's example. -/
def Obligations.BldpktBuildsThePacket : Prop :=
  encode .bldpkt = 0x00000005 ∧ ∀ (s : State) (H : Nat), s.cfg.Legal →
    H = (if s.operands.ipOpt = 0 then 20 else 24) →
    (s.cfg.cap < s.len.toNat → exec .bldpkt s = .next { s with err := 2 }) ∧
    (s.len.toNat ≤ s.cfg.cap → s.cfg.cap < H + s.len.toNat → exec .bldpkt s = .next { s with err := 3 }) ∧
    (H + s.len.toNat ≤ s.cfg.cap → ∃ t, exec .bldpkt s = .next t ∧
      t = { s with outBuf := t.outBuf, outLen := t.outLen, csumRes := t.csumRes, err := 0 } ∧
      t.outLen.toNat = H + s.len.toNat ∧
      t.csumRes = cksum (((t.outBytes H).set 10 0).set 11 0) ∧
      t.outByte 0 = (if s.operands.ipOpt = 0 then 0x45 else 0x46) ∧ t.outByte 1 = 0x00 ∧
      (memRead2 t.outByte 2).toNat = H + s.len.toNat ∧
      memRead2 t.outByte 4 = s.operands.ipId ∧
      (memRead2 t.outByte 6).toNat = 177 * (s.len.toNat / 1416) ∧
      t.outByte 8 = s.operands.ipTtl ∧ t.outByte 9 = s.operands.ipProto ∧
      memRead2 t.outByte 10 = t.csumRes ∧
      memRead4 t.outByte 12 = s.operands.ipSrc ∧ memRead4 t.outByte 16 = s.operands.ipDst ∧
      (s.operands.ipOpt ≠ 0 → t.outByte 20 = s.operands.ipOpt ∧
        t.outByte 21 = 0x00 ∧ t.outByte 22 = 0x00 ∧ t.outByte 23 = 0x00) ∧
      (∀ k, k < s.len.toNat → t.outByte (H + k) = s.inByte k) ∧
      (∀ k, H + s.len.toNat ≤ k → t.outByte k = s.outByte k) ∧
      (s.operands = OperandRegs.reset → s.input = [0x08, 0x00, 0xF7, 0xFF, 0x00, 0x00, 0x00, 0x00] →
        t.output = [0x45, 0x00, 0x00, 0x1C, 0x00, 0x00, 0x00, 0x00, 0x40, 0x01, 0x7C, 0xDF,
          0x7F, 0x00, 0x00, 0x01, 0x7F, 0x00, 0x00, 0x01, 0x08, 0x00, 0xF7, 0xFF, 0x00, 0x00, 0x00, 0x00] ∧
        t.csumRes = 0x7CDF))

/-- 42_packet.md R154, R156: the flags and fragment-offset field and its bound; whatever its value, the output is one packet
holding the whole datagram. -/
def Obligations.FragmentFieldIsTheLegacyEstimate : Prop :=
  ∀ (s : State) (H : Nat), s.cfg.Legal → H = (if s.operands.ipOpt = 0 then 20 else 24) → H + s.len.toNat ≤ s.cfg.cap →
    ∃ t, exec .bldpkt s = .next t ∧
      (memRead2 t.outByte 6).toNat = 1416 * (s.len.toNat / 1416) / 8 ∧
      (memRead2 t.outByte 6).toNat = 177 * (s.len.toNat / 1416) ∧
      (s.len.toNat < 1416 → memRead2 t.outByte 6 = 0x0000) ∧
      (1416 ≤ s.len.toNat → s.len.toNat < 2832 → memRead2 t.outByte 6 = 0x00B1) ∧
      (2832 ≤ s.len.toNat → s.len.toNat < 4248 → memRead2 t.outByte 6 = 0x0162) ∧
      s.len.toNat ≤ 65515 ∧ s.len.toNat / 1416 ≤ 46 ∧
      (memRead2 t.outByte 6).toNat ≤ 0x1FCE ∧ (memRead2 t.outByte 6).extractLsb' 13 3 = 0 ∧
      (s.cfg.cap = 2048 → memRead2 t.outByte 6 = 0 ∨ memRead2 t.outByte 6 = 177) ∧
      t.outLen.toNat = H + s.len.toNat ∧
      (∀ k, k < s.len.toNat → t.outByte (H + k) = s.inByte k)

/-- 42_packet.md R155: the header checksum covers the header with its field zero and no byte of the datagram; the rule's own
word sum and fold. -/
def Obligations.HeaderChecksumCoversTheHeaderOnly : Prop :=
  (∀ (s : State) (H : Nat), s.cfg.Legal → H = (if s.operands.ipOpt = 0 then 20 else 24) →
    H + s.len.toNat ≤ s.cfg.cap → ∃ t, exec .bldpkt s = .next t ∧
      t.csumRes = cksum (((t.outBytes H).set 10 0).set 11 0) ∧
      t.outByte 10 = t.csumRes.extractLsb' 8 8 ∧ t.outByte 11 = t.csumRes.extractLsb' 0 8 ∧
      (∀ u v : State, u.cfg = s.cfg → u.len = s.len → u.operands = s.operands → exec .bldpkt u = .next v →
        v.csumRes = t.csumRes)) ∧
  wsum (ipHeader OperandRegs.reset 8) = 0x1831F ∧ fold 0x1831F = 0x8320 ∧
  cksum (ipHeader OperandRegs.reset 8) = 0x7CDF

/-- 42_packet.md R159, R151: what holds of the output of every BLDPKT that completes. -/
def Obligations.BldpktOutputInvariants : Prop :=
  ∀ (s t : State) (H : Nat), s.cfg.Legal → H = (if s.operands.ipOpt = 0 then 20 else 24) →
    exec .bldpkt s = .next t → t.err = 0 →
    (t.outByte 0).extractLsb' 4 4 = (4 : BitVec 4) ∧
    ((t.outByte 0).extractLsb' 0 4).toNat * 4 = H ∧
    ((t.outByte 0).extractLsb' 0 4 = (5 : BitVec 4) ∨ (t.outByte 0).extractLsb' 0 4 = (6 : BitVec 4)) ∧
    memRead2 t.outByte 2 = t.outLen ∧
    t.outByte 1 = 0 ∧
    cksum (t.outBytes H) = 0x0000 ∧
    (∀ k, k < s.len.toNat → t.outByte (H + k) = s.inByte k) ∧
    (s.operands = OperandRegs.reset → s.len = 8 →
      t.outLen = 28 ∧ t.outByte 0 = 0x45 ∧ t.outByte 1 = 0x00 ∧ memRead2 t.outByte 2 = 0x001C)

/-! ## DECODE -/

/-- 43_decode.md R170, R171: DECODE, word, completion field by field, aborts in their order, and the rule's example. -/
def Obligations.DecodeUnpacksTheHeaders : Prop :=
  encode .decode = 0x00000006 ∧ ∀ s : State,
    (s.cfg.cap < s.len.toNat → exec .decode s = .next { s with err := 2 }) ∧
    (s.len.toNat ≤ s.cfg.cap → s.len.toNat < 28 → exec .decode s = .next { s with err := 4 }) ∧
    (28 ≤ s.len.toNat → s.len.toNat ≤ s.cfg.cap → (s.inByte 0).toNat / 16 ≠ 4 →
      exec .decode s = .next { s with err := 4 }) ∧
    (28 ≤ s.len.toNat → s.len.toNat ≤ s.cfg.cap → (s.inByte 0).toNat / 16 = 4 →
      ∃ t, exec .decode s = .next t ∧ t = { s with dec := t.dec, err := 0 } ∧
        t.dec.ver = 4 ∧ t.dec.ihl.toNat = (s.inByte 0).toNat % 16 ∧
        t.dec.totLen.toNat = (s.inByte 2).toNat * 256 + (s.inByte 3).toNat ∧
        t.dec.ipId.toNat = (s.inByte 4).toNat * 256 + (s.inByte 5).toNat ∧
        t.dec.frag.toNat = (s.inByte 6).toNat * 256 + (s.inByte 7).toNat ∧
        t.dec.ttl = s.inByte 8 ∧ t.dec.proto = s.inByte 9 ∧
        t.dec.hcsum.toNat = (s.inByte 10).toNat * 256 + (s.inByte 11).toNat ∧
        t.dec.src.toNat = (s.inByte 12).toNat * 2 ^ 24 + (s.inByte 13).toNat * 2 ^ 16 +
          (s.inByte 14).toNat * 2 ^ 8 + (s.inByte 15).toNat ∧
        t.dec.dst.toNat = (s.inByte 16).toNat * 2 ^ 24 + (s.inByte 17).toNat * 2 ^ 16 +
          (s.inByte 18).toNat * 2 ^ 8 + (s.inByte 19).toNat ∧
        t.dec.icmpType = s.inByte 20 ∧ t.dec.icmpCode = s.inByte 21 ∧
        t.dec.icsum.toNat = (s.inByte 22).toNat * 256 + (s.inByte 23).toNat ∧
        t.dec.icmpId.toNat = (s.inByte 24).toNat * 256 + (s.inByte 25).toNat ∧
        t.dec.icmpSeq.toNat = (s.inByte 26).toNat * 256 + (s.inByte 27).toNat) ∧
    (28 ≤ s.cfg.cap → s.input = [0x45, 0x00, 0x00, 0x1C, 0x00, 0x00, 0x00, 0x00, 0x40, 0x01, 0x7C, 0xDF,
        0x7F, 0x00, 0x00, 0x01, 0x7F, 0x00, 0x00, 0x01, 0x08, 0x00, 0xF7, 0xFF, 0x00, 0x00, 0x00, 0x00] →
      exec .decode s = .next { s with err := 0, dec := ⟨4, 5, 0x001C, 0, 0, 0x40, 1, 0x7CDF, 0x7F000001, 0x7F000001,
        8, 0, 0xF7FF, 0, 0⟩ })

/-- 43_decode.md R173: the ICMP header is always taken at byte 20, so a packet that BLDPKT built with an option byte reports the
option bytes. -/
def Obligations.DecodeTakesTheMessageAtByteTwenty : Prop :=
  (∀ s t : State, exec .decode s = .next t → t.err = 0 →
    t.dec.icmpType = s.inByte 20 ∧ t.dec.icmpCode = s.inByte 21 ∧ t.dec.icsum = memRead2 s.inByte 22 ∧
    t.dec.icmpId = memRead2 s.inByte 24 ∧ t.dec.icmpSeq = memRead2 s.inByte 26 ∧
    t.dec.ihl = (s.inByte 0).extractLsb' 0 4) ∧
  (∀ s : State, s.cfg.Legal → s.operands.ipOpt ≠ 0 → 4 ≤ s.len.toNat → 24 + s.len.toNat ≤ s.cfg.cap →
    ∃ s1 s2 s3, exec .bldpkt s = .next s1 ∧ exec .move s1 = .next s2 ∧ exec .decode s2 = .next s3 ∧
      s3.err = 0 ∧ s3.dec.ihl = 6 ∧ s3.dec.icmpType = s.operands.ipOpt ∧ s3.dec.icmpCode = 0 ∧ s3.dec.icsum = 0 ∧
      s3.dec.icmpId = memRead2 s.inByte 0 ∧ s3.dec.icmpSeq = memRead2 s.inByte 2)

/-- 43_decode.md R175: packing and unpacking are inverse, for a packet around any datagram and for one around a datagram of
BLDDG. -/
def Obligations.DecodeRecoversWhatTheBuildersPacked : Prop :=
  (∀ s : State, s.cfg.Legal → s.operands.ipOpt = 0 → 20 + s.len.toNat ≤ s.cfg.cap →
    ∃ s1 s2 s3, exec .bldpkt s = .next s1 ∧ exec .move s1 = .next s2 ∧ exec .decode s2 = .next s3 ∧
      (s.len.toNat < 8 → s3.err = 4) ∧
      (8 ≤ s.len.toNat → s3.err = 0 ∧ s3.dec.ver = 4 ∧ s3.dec.ihl = 5 ∧ s3.dec.totLen = s1.outLen ∧
        s3.dec.ipId = s.operands.ipId ∧ s3.dec.frag.toNat = 177 * (s.len.toNat / 1416) ∧
        s3.dec.ttl = s.operands.ipTtl ∧ s3.dec.proto = s.operands.ipProto ∧ s3.dec.hcsum = s1.csumRes ∧
        s3.dec.src = s.operands.ipSrc ∧ s3.dec.dst = s.operands.ipDst)) ∧
  (∀ s : State, s.cfg.Legal → s.operands.ipOpt = 0 → 28 + s.len.toNat ≤ s.cfg.cap →
    ∃ s1 s2 s3 s4 s5, exec .blddg s = .next s1 ∧ exec .move s1 = .next s2 ∧ exec .bldpkt s2 = .next s3 ∧
      exec .move s3 = .next s4 ∧ exec .decode s4 = .next s5 ∧
      s5.err = 0 ∧ s5.dec.ver = 4 ∧ s5.dec.ihl = 5 ∧ s5.dec.totLen = s3.outLen ∧ s5.dec.ipId = s.operands.ipId ∧
      s5.dec.frag.toNat = 177 * ((8 + s.len.toNat) / 1416) ∧
      s5.dec.ttl = s.operands.ipTtl ∧ s5.dec.proto = s.operands.ipProto ∧ s5.dec.hcsum = s3.csumRes ∧
      s5.dec.src = s.operands.ipSrc ∧ s5.dec.dst = s.operands.ipDst ∧
      s5.dec.icmpType = 8 ∧ s5.dec.icmpCode = 0 ∧ s5.dec.icmpId = s.operands.icmpId ∧
      s5.dec.icmpSeq = s.operands.icmpSeq ∧ s5.dec.icsum = s1.csumRes)

/-- 40_checksum.md R112, 41_datagram.md R142, 42_packet.md R159: a datagram BLDDG built, and the header of a packet BLDPKT built,
moved to IN, check to 0x0000 under CSUM. -/
def Obligations.WhatTheBuildersBuildVerifies : Prop :=
  (∀ s : State, s.cfg.Legal → 8 + s.len.toNat ≤ s.cfg.cap →
    ∃ s1 s2 s3, exec .blddg s = .next s1 ∧ exec .move s1 = .next s2 ∧ exec .csum s2 = .next s3 ∧
      s3.err = 0 ∧ s3.csumRes = 0x0000) ∧
  (∀ (s : State) (H : Nat), s.cfg.Legal → H = (if s.operands.ipOpt = 0 then 20 else 24) → H + s.len.toNat ≤ s.cfg.cap →
    ∃ s1 s2 s3, exec .bldpkt s = .next s1 ∧ exec .move s1 = .next s2 ∧
      exec .csum { s2 with len := BitVec.ofNat 16 H } = .next s3 ∧ s3.err = 0 ∧ s3.csumRes = 0x0000)

/-! ## MOVE -/

/-- 44_move.md R185: MOVE, word, what it writes, and its corner cases. -/
def Obligations.MoveCopiesOutToIn : Prop :=
  encode .move = 0x00000007 ∧ ∀ s : State, ∃ t, exec .move s = .next t ∧
    t = { s with inBuf := t.inBuf, len := s.outLen, err := 0 } ∧
    (∀ k, k < s.outLen.toNat → t.inByte k = s.outByte k) ∧
    (∀ k, s.outLen.toNat ≤ k → t.inByte k = s.inByte k) ∧
    t.input = t.output ∧
    exec .move t = .next t ∧
    (s.outLen = 0 → t = { s with len := 0, err := 0 }) ∧
    (s.output = [0x08, 0x00, 0xF7, 0xFF, 0x00, 0x00, 0x00, 0x00] →
      t.input = [0x08, 0x00, 0xF7, 0xFF, 0x00, 0x00, 0x00, 0x00] ∧ t.len = 8)

/-- 44_move.md R186: MOVE against the host's own copy: `m` reads of the OUT window, `m` writes of the IN window and one write of
LEN. The two end in the same state but for STATUS.ERR, which the host cannot write, and the responses. -/
def Obligations.MoveEqualsTheCopyByTheHost : Prop :=
  ∀ s : State, s.Inv → ∃ t u, exec .move s = .next t ∧
    performAll (((List.range s.outLen.toNat).flatMap (fun k => [rbOut k, wb k (s.outByte k)]))
      ++ [wr .len (s.readReg .outLen)]) s = .next u ∧
    t = { u with err := 0, responses := s.responses } ∧
    u.responses = s.responses ++
      ((List.range s.outLen.toNat).flatMap (fun k => [.okByte (s.outByte k), .ok])) ++ [.ok]

/-! ## Errors -/

/-- 60_exceptions.md R193: BadLength is raised exactly here. -/
def Obligations.BadLengthExactlyWhen : Prop :=
  ∀ (i : Instr) (s : State),
    (exec i s = .next { s with err := 2 } ↔
      (i ≠ .move ∧ s.cfg.cap < s.len.toNat) ∨ (i = .zcfIp ∧ s.len.toNat < 12) ∨ (i = .zcfIcmp ∧ s.len.toNat < 4)) ∧
    (65535 ≤ s.cfg.cap → ¬ s.cfg.cap < s.len.toNat)

/-- 60_exceptions.md R194 (after R199's first two): Overflow is raised exactly here. -/
def Obligations.OverflowExactlyWhen : Prop :=
  ∀ (i : Instr) (s : State),
    exec i s = .next { s with err := 3 } ↔ s.len.toNat ≤ s.cfg.cap ∧
      ((i = .blddg ∧ s.cfg.cap < 8 + s.len.toNat) ∨
       (i = .bldpkt ∧ s.cfg.cap < (if s.operands.ipOpt = 0 then 20 else 24) + s.len.toNat))

/-- 60_exceptions.md R195 (after R199's first two): MalformedReply is raised by DECODE only, exactly here. -/
def Obligations.MalformedReplyExactlyWhen : Prop :=
  ∀ (i : Instr) (s : State),
    exec i s = .next { s with err := 4 } ↔ i = .decode ∧ s.len.toNat ≤ s.cfg.cap ∧
      (s.len.toNat < 28 ∨ (s.inByte 0).toNat / 16 ≠ 4)

/-- 60_exceptions.md R198: which command can raise what, and an abort changes nothing but ERR. -/
def Obligations.AbortsArePrecise : Prop :=
  (∀ (i : Instr) (s t : State), exec i s = .next t → t.err ≠ 0 →
    t = { s with err := t.err } ∧
    match i with
    | .csum | .zcfIp | .zcfIcmp => t.err = 2
    | .blddg | .bldpkt => t.err = 2 ∨ t.err = 3
    | .decode => t.err = 2 ∨ t.err = 4
    | .move => False) ∧
  (∀ (w : Word) (e : DecodeError) (s : State), decode w = .error e → runCommandWord w s = .next { s with err := 1 })

/-- 60_exceptions.md R199: the first condition in the order is the one reported. -/
def Obligations.TheFirstErrorIsReported : Prop :=
  (∀ (w : Word) (e : DecodeError) (s : State), decode w = .error e → runCommandWord w s = .next { s with err := 1 }) ∧
  (∀ (i : Instr) (s : State), i ≠ .move → s.cfg.cap < s.len.toNat → exec i s = .next { s with err := 2 }) ∧
  (∀ s : State, s.cfg.Legal → s.cfg.cap < s.len.toNat → 12 ≤ s.len.toNat ∧ s.cfg.cap < 8 + s.len.toNat) ∧
  (∀ s : State, s.len.toNat ≤ s.cfg.cap → s.len.toNat < 12 → exec .zcfIp s = .next { s with err := 2 }) ∧
  (∀ s : State, s.len.toNat ≤ s.cfg.cap → s.len.toNat < 4 → exec .zcfIcmp s = .next { s with err := 2 }) ∧
  (∀ s : State, s.len.toNat ≤ s.cfg.cap → s.cfg.cap < 8 + s.len.toNat → exec .blddg s = .next { s with err := 3 }) ∧
  (∀ s : State, s.len.toNat ≤ s.cfg.cap → s.cfg.cap < (if s.operands.ipOpt = 0 then 20 else 24) + s.len.toNat →
    exec .bldpkt s = .next { s with err := 3 }) ∧
  (∀ s : State, s.len.toNat ≤ s.cfg.cap → s.len.toNat < 28 ∨ (s.inByte 0).toNat / 16 ≠ 4 →
    exec .decode s = .next { s with err := 4 })

/-- 60_exceptions.md R202: an error does not stick: the next command runs as if it were not there. -/
def Obligations.AnErrorDoesNotStick : Prop :=
  ∀ (i : Instr) (s : State) (e : BitVec 4), exec i { s with err := e } = exec i s

/-- 10_state.md R32, 60_exceptions.md R190: only commands write ERR, and only the five codes; STATUS reads as ERR in bits 3:0. -/
def Obligations.OnlyCommandsWriteErr : Prop :=
  (∀ (w : Word) (s t : State), runCommandWord w s = .next t →
    t.err = 0 ∨ t.err = 1 ∨ t.err = 2 ∨ t.err = 3 ∨ t.err = 4) ∧
  (∀ (tr : Transaction) (s t : State), (∀ w, tr ≠ .write32 0x000 w) → transact tr s = .next t → t.err = s.err) ∧
  (∀ s : State, (s.readReg .status).toNat = s.err.toNat)

/-! ## What each command reads and writes -/

/-- 10_state.md R20, 45_absent_classes.md R187: a command's result depends on nothing but the registers and buffer bytes its rule
names. -/
def Obligations.ResultsDependOnNamedStateOnly : Prop :=
  ∀ (i : Instr) (s t s' t' : State), Sys2Proof.Spec.sameOperands i s t →
    exec i s = .next s' → exec i t = .next t' →
    s'.err = t'.err ∧ (s'.err = 0 → Sys2Proof.Spec.sameResults i s' t')

/-- 10_state.md section 2, R33 to R35, R51, R52, section 4; 45_absent_classes.md R188: which command may write what. -/
def Obligations.EachPieceOfStateHasItsWriters : Prop :=
  ∀ (i : Instr) (s t : State), exec i s = .next t →
    t.cfg = s.cfg ∧ t.operands = s.operands ∧ t.pending = s.pending ∧ t.responses = s.responses ∧ t.resets = s.resets ∧
    (i ≠ .move → t.inBuf = s.inBuf ∧ t.len = s.len) ∧
    (i = .csum ∨ i = .decode ∨ i = .move → t.outBuf = s.outBuf ∧ t.outLen = s.outLen) ∧
    (i = .zcfIp ∨ i = .zcfIcmp ∨ i = .decode ∨ i = .move → t.csumRes = s.csumRes) ∧
    (i ≠ .decode → t.dec = s.dec)

/-- The frame of the commands that store no byte: CSUM and DECODE. -/
def Obligations.CsumAndDecodeFrame : Prop :=
  ∀ (i : Instr) (s t : State), i = .csum ∨ i = .decode → exec i s = .next t →
    (∀ k, t.inByte k = s.inByte k) ∧ (∀ k, t.outByte k = s.outByte k) ∧
    t.operands = s.operands ∧ t.len = s.len ∧ t.outLen = s.outLen ∧ t.cfg = s.cfg ∧
    (i = .csum → t.dec = s.dec) ∧ (i = .decode → t.csumRes = s.csumRes)

/-- The frame of the commands that store into OUT: ZCF.IP, ZCF.ICMP, BLDDG and BLDPKT. The stored bytes are `OUT[0..n)` with `n`
the length of the command's result. -/
def Obligations.OutputCommandsFrame : Prop :=
  ∀ (i : Instr) (s t : State) (n : Nat),
    (((i = .zcfIp ∨ i = .zcfIcmp) ∧ n = s.len.toNat) ∨ (i = .blddg ∧ n = 8 + s.len.toNat) ∨
      (i = .bldpkt ∧ n = headerLen s.operands.ipOpt + s.len.toNat)) →
    exec i s = .next t →
    (∀ k, t.inByte k = s.inByte k) ∧ (∀ k, n ≤ k → t.outByte k = s.outByte k) ∧
    (t.err ≠ 0 → ∀ k, t.outByte k = s.outByte k) ∧
    t.operands = s.operands ∧ t.len = s.len ∧ t.dec = s.dec ∧ t.cfg = s.cfg ∧
    (i = .zcfIp ∨ i = .zcfIcmp → t.csumRes = s.csumRes)

/-- The frame of the command that stores into IN: MOVE. The stored bytes are `IN[0..OUT_LEN)`. -/
def Obligations.MoveFrame : Prop :=
  ∀ s t : State, exec .move s = .next t →
    (∀ k, t.outByte k = s.outByte k) ∧ (∀ k, s.outLen.toNat ≤ k → t.inByte k = s.inByte k) ∧
    t.operands = s.operands ∧ t.outLen = s.outLen ∧ t.csumRes = s.csumRes ∧ t.dec = s.dec ∧ t.cfg = s.cfg

/-! ## The bus -/

/-- 20_memory.md R63: the register map, row by row: a read returns what the register holds, zero-extended; its bits, its reset
value, its access right; nothing at the other offsets of the register region, and no byte access to it. -/
def Obligations.RegisterMapIsTheTable : Prop :=
  (∀ row ∈ Sys2Proof.Spec.registerTable, ∀ s : State,
    transact (.read32 row.offset) s = .next { s with
      responses := s.responses ++ [.okWord (BitVec.ofNat 32 (Sys2Proof.Spec.held s row.reg))] } ∧
    (s.readReg row.reg).toNat = Sys2Proof.Spec.held s row.reg ∧
    Sys2Proof.Spec.held s row.reg < 2 ^ row.bits ∧
    Sys2Proof.Spec.held (State.powerOn s.cfg) row.reg = row.reset ∧
    (row.access = .readOnly → ∀ v,
      transact (.write32 row.offset v) s = .next { s with responses := s.responses ++ [.ok] }) ∧
    (row.access = .readWrite → ∀ v, ∃ t, transact (.write32 row.offset v) s = .next t ∧
      Sys2Proof.Spec.held t row.reg = v.toNat % 2 ^ row.bits ∧ t.responses = s.responses ++ [.ok]) ∧
    (row.access = .writeOnly → s.readReg row.reg = 0 ∧ row.reg = .cmd)) ∧
  (∀ r : Reg, ∃ row ∈ Sys2Proof.Spec.registerTable, row.reg = r) ∧
  (∀ (a : Nat) (v : Word) (s : State), a ≤ 0x7F → ¬ Sys2Proof.Spec.isRegister a →
    transact (.read32 a) s = .next { s with responses := s.responses ++ [.busError] } ∧
    transact (.write32 a v) s = .next { s with responses := s.responses ++ [.busError] }) ∧
  (∀ (a : Nat) (b : Byte) (s : State), a ≤ 0x7F →
    transact (.read8 a) s = .next { s with responses := s.responses ++ [.busError] } ∧
    transact (.write8 a b) s = .next { s with responses := s.responses ++ [.busError] })

/-- 10_state.md R22: a host write puts the low bits of the register's width into that register, and changes no other register, no
buffer byte and nothing else; a read then returns them zero-extended. -/
def Obligations.HostWritesAreNarrowed : Prop :=
  ∀ row ∈ Sys2Proof.Spec.registerTable, row.access = .readWrite → ∀ (s : State) (v : Word),
    ∃ t, transact (.write32 row.offset v) s = .next t ∧
      Sys2Proof.Spec.held t row.reg = v.toNat % 2 ^ row.bits ∧
      t.readReg row.reg = BitVec.ofNat 32 (v.toNat % 2 ^ row.bits) ∧
      (∀ r, r ≠ row.reg → Sys2Proof.Spec.held t r = Sys2Proof.Spec.held s r) ∧
      (∀ r, r ≠ row.reg → t.readReg r = s.readReg r) ∧
      (∀ k, t.inByte k = s.inByte k) ∧ (∀ k, t.outByte k = s.outByte k) ∧
      t = { s with len := t.len, operands := t.operands, responses := s.responses ++ [.ok] }

/-- 20_memory.md R64: the IN window. -/
def Obligations.InWindowIsTheInputBuffer : Prop :=
  ∀ (s : State) (i : Nat) (b : Byte) (v : Word), s.cfg.Legal →
    (i < s.cfg.cap →
      (∃ t, transact (.write8 (0x10000 + i) b) s = .next t ∧
        t = { s with inBuf := t.inBuf, responses := s.responses ++ [.ok] } ∧
        t.inByte i = b ∧ ∀ k, k ≠ i → t.inByte k = s.inByte k) ∧
      transact (.read8 (0x10000 + i)) s = .next { s with responses := s.responses ++ [.okByte (s.inByte i)] } ∧
      transact (.write32 (0x10000 + i) v) s = .next { s with responses := s.responses ++ [.busError] } ∧
      transact (.read32 (0x10000 + i)) s = .next { s with responses := s.responses ++ [.busError] }) ∧
    (s.cfg.cap ≤ i → i ≤ 0xFFFF →
      ∀ tr ∈ [Transaction.write8 (0x10000 + i) b, .read8 (0x10000 + i), .write32 (0x10000 + i) v, .read32 (0x10000 + i)],
        transact tr s = .next { s with responses := s.responses ++ [.busError] })

/-- 20_memory.md R65: the OUT window. -/
def Obligations.OutWindowIsTheOutputBuffer : Prop :=
  ∀ (s : State) (i : Nat) (b : Byte) (v : Word), s.cfg.Legal →
    (i < s.cfg.cap →
      transact (.read8 (0x20000 + i)) s = .next { s with responses := s.responses ++ [.okByte (s.outByte i)] } ∧
      transact (.write8 (0x20000 + i) b) s = .next { s with responses := s.responses ++ [.ok] }) ∧
    (s.cfg.cap ≤ i → i ≤ 0xFFFF →
      ∀ tr ∈ [Transaction.write8 (0x20000 + i) b, .read8 (0x20000 + i), .write32 (0x20000 + i) v, .read32 (0x20000 + i)],
        transact tr s = .next { s with responses := s.responses ++ [.busError] })

/-- 20_memory.md R66: a read changes no state; a write against the access right changes none either and gets OK; CMD reads as 0. -/
def Obligations.ReadsAndForbiddenWritesChangeNothing : Prop :=
  ∀ s : State,
    (∀ a, ∃ r, transact (.read32 a) s = .next { s with responses := s.responses ++ [r] }) ∧
    (∀ a, ∃ r, transact (.read8 a) s = .next { s with responses := s.responses ++ [r] }) ∧
    (∀ row ∈ Sys2Proof.Spec.registerTable, row.access = .readOnly → ∀ v,
      transact (.write32 row.offset v) s = .next { s with responses := s.responses ++ [.ok] }) ∧
    (s.cfg.Legal → ∀ i b, i < s.cfg.cap →
      transact (.write8 (0x20000 + i) b) s = .next { s with responses := s.responses ++ [.ok] }) ∧
    transact (.read32 0x000) s = .next { s with responses := s.responses ++ [.okWord 0] }

/-- 20_memory.md R67: BusError exactly in the four cases, and then nothing changes, STATUS.ERR included. -/
def Obligations.BusErrorExactlyWhen : Prop :=
  ∀ (tr : Transaction) (s t : State) (r : Response), s.cfg.Legal → transact tr s = .next t →
    t.responses = s.responses ++ [r] →
    (r = .busError ↔ Sys2Proof.Spec.badAccess s.cfg.cap tr) ∧
    (r = .busError → t = { s with responses := s.responses ++ [.busError] })

/-- 20_memory.md R72: every transaction but a write to CMD does nothing beyond the location it addresses when it is done a second
time: the state and the response stay the same. -/
def Obligations.TransactionsAreIdempotent : Prop :=
  ∀ (tr : Transaction) (s t : State), (∀ w, tr ≠ .write32 0x000 w) → transact tr s = .next t →
    ∃ r, t.responses = s.responses ++ [r] ∧ transact tr t = .next { t with responses := t.responses ++ [r] }

/-- 20_memory.md R74: a byte the host wrote into IN is what it reads there, whatever transactions come between that neither
write the byte again nor start a command; and so for LEN. -/
def Obligations.ReadsReturnTheLatestWrite : Prop :=
  ∀ (es : List Transaction) (s t : State), s.cfg.Legal → (∀ tr ∈ es, ∀ w, tr ≠ .write32 0x000 w) →
    (∀ (i : Nat) (b : Byte), i < s.cfg.cap → (∀ tr ∈ es, ∀ x, tr ≠ .write8 (0x10000 + i) x) →
      performAll (wb i b :: es.map .bus) s = .next t → t.inByte i = b ∧
        transact (.read8 (0x10000 + i)) t = .next { t with responses := t.responses ++ [.okByte b] }) ∧
    (∀ v : Word, (∀ tr ∈ es, ∀ x, tr ≠ .write32 0x008 x) →
      performAll (wr .len v :: es.map .bus) s = .next t → t.len = BitVec.ofNat 16 v.toNat ∧
        transact (.read32 0x008) t = .next { t with responses := t.responses ++ [.okWord (BitVec.ofNat 32 (v.toNat % 2 ^ 16))] })

/-- 30_encoding.md R97: LDIN loads an input. -/
def Obligations.LdinLoadsTheInput : Prop :=
  ∀ (s : State) (bs : List Byte), s.cfg.Legal → bs.length ≤ s.cfg.cap →
    ∃ t, performAll (ldin bs) s = .next t ∧ t.input = bs ∧ t.len.toNat = bs.length ∧
      (∀ k, bs.length ≤ k → t.inByte k = s.inByte k) ∧
      t = { s with inBuf := t.inBuf, len := t.len, responses := s.responses ++ List.replicate (bs.length + 1) .ok }

/-! ## Invariants -/

/-- 10_state.md R34, R51, R52, R32, R36; 20_memory.md R73: every step, whatever the host does, keeps the invariant. -/
def Obligations.EveryStepKeepsTheInvariant : Prop :=
  ∀ s t : State, s.Inv → step s = .next t → t.Inv

/-- The invariant holds of every block just powered on with a legal CAP, State.reset among them, whatever the host is going to
do. -/
def Obligations.PowerOnMeetsTheInvariant : Prop :=
  State.reset.Inv ∧ ∀ (c : Config) (es : List HostEvent), c.Legal → ((State.powerOn c).setPending es).Inv

/-- The invariant holds of every reachable state, and there the next step answers a reachable state. -/
def Obligations.ReachableStatesMeetTheInvariant : Prop :=
  ∀ s : State, Reachable s → s.Inv ∧ ∃ t, step s = .next t ∧ Reachable t
end

