-- ==== Sys2Proof/Laws/State.lean ====
section
/-! SUPPORT. One lemma per field per update of State, true by rfl, so that no later proof unfolds a record update. -/

namespace Sys2Proof.Machine

/-! ## setErr -/

@[simp] theorem State.setErr_cfg (s : State) (e : BitVec 4) : (s.setErr e).cfg = s.cfg := rfl
@[simp] theorem State.setErr_operands (s : State) (e : BitVec 4) : (s.setErr e).operands = s.operands := rfl
@[simp] theorem State.setErr_err (s : State) (e : BitVec 4) : (s.setErr e).err = e := rfl
@[simp] theorem State.setErr_len (s : State) (e : BitVec 4) : (s.setErr e).len = s.len := rfl
@[simp] theorem State.setErr_outLen (s : State) (e : BitVec 4) : (s.setErr e).outLen = s.outLen := rfl
@[simp] theorem State.setErr_csumRes (s : State) (e : BitVec 4) : (s.setErr e).csumRes = s.csumRes := rfl
@[simp] theorem State.setErr_dec (s : State) (e : BitVec 4) : (s.setErr e).dec = s.dec := rfl
@[simp] theorem State.setErr_inBuf (s : State) (e : BitVec 4) : (s.setErr e).inBuf = s.inBuf := rfl
@[simp] theorem State.setErr_outBuf (s : State) (e : BitVec 4) : (s.setErr e).outBuf = s.outBuf := rfl
@[simp] theorem State.setErr_pending (s : State) (e : BitVec 4) : (s.setErr e).pending = s.pending := rfl
@[simp] theorem State.setErr_responses (s : State) (e : BitVec 4) : (s.setErr e).responses = s.responses := rfl
@[simp] theorem State.setErr_resets (s : State) (e : BitVec 4) : (s.setErr e).resets = s.resets := rfl
@[simp] theorem State.setErr_inByte (s : State) (e : BitVec 4) (j : Nat) : (s.setErr e).inByte j = s.inByte j := rfl
@[simp] theorem State.setErr_input (s : State) (e : BitVec 4) : (s.setErr e).input = s.input := rfl
@[simp] theorem State.setErr_outByte (s : State) (e : BitVec 4) (j : Nat) : (s.setErr e).outByte j = s.outByte j := rfl
@[simp] theorem State.setErr_output (s : State) (e : BitVec 4) : (s.setErr e).output = s.output := rfl

/-! ## setLen -/

@[simp] theorem State.setLen_cfg (s : State) (v : Half) : (s.setLen v).cfg = s.cfg := rfl
@[simp] theorem State.setLen_operands (s : State) (v : Half) : (s.setLen v).operands = s.operands := rfl
@[simp] theorem State.setLen_err (s : State) (v : Half) : (s.setLen v).err = s.err := rfl
@[simp] theorem State.setLen_len (s : State) (v : Half) : (s.setLen v).len = v := rfl
@[simp] theorem State.setLen_outLen (s : State) (v : Half) : (s.setLen v).outLen = s.outLen := rfl
@[simp] theorem State.setLen_csumRes (s : State) (v : Half) : (s.setLen v).csumRes = s.csumRes := rfl
@[simp] theorem State.setLen_dec (s : State) (v : Half) : (s.setLen v).dec = s.dec := rfl
@[simp] theorem State.setLen_inBuf (s : State) (v : Half) : (s.setLen v).inBuf = s.inBuf := rfl
@[simp] theorem State.setLen_outBuf (s : State) (v : Half) : (s.setLen v).outBuf = s.outBuf := rfl
@[simp] theorem State.setLen_pending (s : State) (v : Half) : (s.setLen v).pending = s.pending := rfl
@[simp] theorem State.setLen_responses (s : State) (v : Half) : (s.setLen v).responses = s.responses := rfl
@[simp] theorem State.setLen_resets (s : State) (v : Half) : (s.setLen v).resets = s.resets := rfl
@[simp] theorem State.setLen_inByte (s : State) (v : Half) (j : Nat) : (s.setLen v).inByte j = s.inByte j := rfl
@[simp] theorem State.setLen_outByte (s : State) (v : Half) (j : Nat) : (s.setLen v).outByte j = s.outByte j := rfl
@[simp] theorem State.setLen_output (s : State) (v : Half) : (s.setLen v).output = s.output := rfl

/-! ## setCsumRes -/

@[simp] theorem State.setCsumRes_cfg (s : State) (c : Half) : (s.setCsumRes c).cfg = s.cfg := rfl
@[simp] theorem State.setCsumRes_operands (s : State) (c : Half) : (s.setCsumRes c).operands = s.operands := rfl
@[simp] theorem State.setCsumRes_err (s : State) (c : Half) : (s.setCsumRes c).err = s.err := rfl
@[simp] theorem State.setCsumRes_len (s : State) (c : Half) : (s.setCsumRes c).len = s.len := rfl
@[simp] theorem State.setCsumRes_outLen (s : State) (c : Half) : (s.setCsumRes c).outLen = s.outLen := rfl
@[simp] theorem State.setCsumRes_csumRes (s : State) (c : Half) : (s.setCsumRes c).csumRes = c := rfl
@[simp] theorem State.setCsumRes_dec (s : State) (c : Half) : (s.setCsumRes c).dec = s.dec := rfl
@[simp] theorem State.setCsumRes_inBuf (s : State) (c : Half) : (s.setCsumRes c).inBuf = s.inBuf := rfl
@[simp] theorem State.setCsumRes_outBuf (s : State) (c : Half) : (s.setCsumRes c).outBuf = s.outBuf := rfl
@[simp] theorem State.setCsumRes_pending (s : State) (c : Half) : (s.setCsumRes c).pending = s.pending := rfl
@[simp] theorem State.setCsumRes_responses (s : State) (c : Half) : (s.setCsumRes c).responses = s.responses := rfl
@[simp] theorem State.setCsumRes_resets (s : State) (c : Half) : (s.setCsumRes c).resets = s.resets := rfl
@[simp] theorem State.setCsumRes_inByte (s : State) (c : Half) (j : Nat) : (s.setCsumRes c).inByte j = s.inByte j := rfl
@[simp] theorem State.setCsumRes_input (s : State) (c : Half) : (s.setCsumRes c).input = s.input := rfl
@[simp] theorem State.setCsumRes_outByte (s : State) (c : Half) (j : Nat) : (s.setCsumRes c).outByte j = s.outByte j := rfl
@[simp] theorem State.setCsumRes_output (s : State) (c : Half) : (s.setCsumRes c).output = s.output := rfl

/-! ## setDec -/

@[simp] theorem State.setDec_cfg (s : State) (d : DecodeRegs) : (s.setDec d).cfg = s.cfg := rfl
@[simp] theorem State.setDec_operands (s : State) (d : DecodeRegs) : (s.setDec d).operands = s.operands := rfl
@[simp] theorem State.setDec_err (s : State) (d : DecodeRegs) : (s.setDec d).err = s.err := rfl
@[simp] theorem State.setDec_len (s : State) (d : DecodeRegs) : (s.setDec d).len = s.len := rfl
@[simp] theorem State.setDec_outLen (s : State) (d : DecodeRegs) : (s.setDec d).outLen = s.outLen := rfl
@[simp] theorem State.setDec_csumRes (s : State) (d : DecodeRegs) : (s.setDec d).csumRes = s.csumRes := rfl
@[simp] theorem State.setDec_dec (s : State) (d : DecodeRegs) : (s.setDec d).dec = d := rfl
@[simp] theorem State.setDec_inBuf (s : State) (d : DecodeRegs) : (s.setDec d).inBuf = s.inBuf := rfl
@[simp] theorem State.setDec_outBuf (s : State) (d : DecodeRegs) : (s.setDec d).outBuf = s.outBuf := rfl
@[simp] theorem State.setDec_pending (s : State) (d : DecodeRegs) : (s.setDec d).pending = s.pending := rfl
@[simp] theorem State.setDec_responses (s : State) (d : DecodeRegs) : (s.setDec d).responses = s.responses := rfl
@[simp] theorem State.setDec_resets (s : State) (d : DecodeRegs) : (s.setDec d).resets = s.resets := rfl
@[simp] theorem State.setDec_inByte (s : State) (d : DecodeRegs) (j : Nat) : (s.setDec d).inByte j = s.inByte j := rfl
@[simp] theorem State.setDec_input (s : State) (d : DecodeRegs) : (s.setDec d).input = s.input := rfl
@[simp] theorem State.setDec_outByte (s : State) (d : DecodeRegs) (j : Nat) : (s.setDec d).outByte j = s.outByte j := rfl
@[simp] theorem State.setDec_output (s : State) (d : DecodeRegs) : (s.setDec d).output = s.output := rfl

/-! ## setOperands -/

@[simp] theorem State.setOperands_cfg (s : State) (o : OperandRegs) : (s.setOperands o).cfg = s.cfg := rfl
@[simp] theorem State.setOperands_operands (s : State) (o : OperandRegs) : (s.setOperands o).operands = o := rfl
@[simp] theorem State.setOperands_err (s : State) (o : OperandRegs) : (s.setOperands o).err = s.err := rfl
@[simp] theorem State.setOperands_len (s : State) (o : OperandRegs) : (s.setOperands o).len = s.len := rfl
@[simp] theorem State.setOperands_outLen (s : State) (o : OperandRegs) : (s.setOperands o).outLen = s.outLen := rfl
@[simp] theorem State.setOperands_csumRes (s : State) (o : OperandRegs) : (s.setOperands o).csumRes = s.csumRes := rfl
@[simp] theorem State.setOperands_dec (s : State) (o : OperandRegs) : (s.setOperands o).dec = s.dec := rfl
@[simp] theorem State.setOperands_inBuf (s : State) (o : OperandRegs) : (s.setOperands o).inBuf = s.inBuf := rfl
@[simp] theorem State.setOperands_outBuf (s : State) (o : OperandRegs) : (s.setOperands o).outBuf = s.outBuf := rfl
@[simp] theorem State.setOperands_pending (s : State) (o : OperandRegs) : (s.setOperands o).pending = s.pending := rfl
@[simp] theorem State.setOperands_responses (s : State) (o : OperandRegs) : (s.setOperands o).responses = s.responses := rfl
@[simp] theorem State.setOperands_resets (s : State) (o : OperandRegs) : (s.setOperands o).resets = s.resets := rfl
@[simp] theorem State.setOperands_inByte (s : State) (o : OperandRegs) (j : Nat) : (s.setOperands o).inByte j = s.inByte j := rfl
@[simp] theorem State.setOperands_input (s : State) (o : OperandRegs) : (s.setOperands o).input = s.input := rfl
@[simp] theorem State.setOperands_outByte (s : State) (o : OperandRegs) (j : Nat) : (s.setOperands o).outByte j = s.outByte j := rfl
@[simp] theorem State.setOperands_output (s : State) (o : OperandRegs) : (s.setOperands o).output = s.output := rfl

/-! ## putOutput -/

@[simp] theorem State.putOutput_cfg (s : State) (bs : List Byte) : (s.putOutput bs).cfg = s.cfg := rfl
@[simp] theorem State.putOutput_operands (s : State) (bs : List Byte) : (s.putOutput bs).operands = s.operands := rfl
@[simp] theorem State.putOutput_err (s : State) (bs : List Byte) : (s.putOutput bs).err = s.err := rfl
@[simp] theorem State.putOutput_len (s : State) (bs : List Byte) : (s.putOutput bs).len = s.len := rfl
@[simp] theorem State.putOutput_outLen (s : State) (bs : List Byte) : (s.putOutput bs).outLen = BitVec.ofNat 16 bs.length := rfl
@[simp] theorem State.putOutput_csumRes (s : State) (bs : List Byte) : (s.putOutput bs).csumRes = s.csumRes := rfl
@[simp] theorem State.putOutput_dec (s : State) (bs : List Byte) : (s.putOutput bs).dec = s.dec := rfl
@[simp] theorem State.putOutput_inBuf (s : State) (bs : List Byte) : (s.putOutput bs).inBuf = s.inBuf := rfl
@[simp] theorem State.putOutput_outBuf (s : State) (bs : List Byte) : (s.putOutput bs).outBuf = Memory.fill bs s.outBuf := rfl
@[simp] theorem State.putOutput_pending (s : State) (bs : List Byte) : (s.putOutput bs).pending = s.pending := rfl
@[simp] theorem State.putOutput_responses (s : State) (bs : List Byte) : (s.putOutput bs).responses = s.responses := rfl
@[simp] theorem State.putOutput_resets (s : State) (bs : List Byte) : (s.putOutput bs).resets = s.resets := rfl
@[simp] theorem State.putOutput_inByte (s : State) (bs : List Byte) (j : Nat) : (s.putOutput bs).inByte j = s.inByte j := rfl
@[simp] theorem State.putOutput_input (s : State) (bs : List Byte) : (s.putOutput bs).input = s.input := rfl

/-! ## fillInput -/

@[simp] theorem State.fillInput_cfg (s : State) (bs : List Byte) : (s.fillInput bs).cfg = s.cfg := rfl
@[simp] theorem State.fillInput_operands (s : State) (bs : List Byte) : (s.fillInput bs).operands = s.operands := rfl
@[simp] theorem State.fillInput_err (s : State) (bs : List Byte) : (s.fillInput bs).err = s.err := rfl
@[simp] theorem State.fillInput_len (s : State) (bs : List Byte) : (s.fillInput bs).len = s.len := rfl
@[simp] theorem State.fillInput_outLen (s : State) (bs : List Byte) : (s.fillInput bs).outLen = s.outLen := rfl
@[simp] theorem State.fillInput_csumRes (s : State) (bs : List Byte) : (s.fillInput bs).csumRes = s.csumRes := rfl
@[simp] theorem State.fillInput_dec (s : State) (bs : List Byte) : (s.fillInput bs).dec = s.dec := rfl
@[simp] theorem State.fillInput_inBuf (s : State) (bs : List Byte) : (s.fillInput bs).inBuf = Memory.fill bs s.inBuf := rfl
@[simp] theorem State.fillInput_outBuf (s : State) (bs : List Byte) : (s.fillInput bs).outBuf = s.outBuf := rfl
@[simp] theorem State.fillInput_pending (s : State) (bs : List Byte) : (s.fillInput bs).pending = s.pending := rfl
@[simp] theorem State.fillInput_responses (s : State) (bs : List Byte) : (s.fillInput bs).responses = s.responses := rfl
@[simp] theorem State.fillInput_resets (s : State) (bs : List Byte) : (s.fillInput bs).resets = s.resets := rfl
@[simp] theorem State.fillInput_outByte (s : State) (bs : List Byte) (j : Nat) : (s.fillInput bs).outByte j = s.outByte j := rfl
@[simp] theorem State.fillInput_output (s : State) (bs : List Byte) : (s.fillInput bs).output = s.output := rfl

/-! ## setInByte -/

@[simp] theorem State.setInByte_cfg (s : State) (i : Nat) (b : Byte) : (s.setInByte i b).cfg = s.cfg := rfl
@[simp] theorem State.setInByte_operands (s : State) (i : Nat) (b : Byte) : (s.setInByte i b).operands = s.operands := rfl
@[simp] theorem State.setInByte_err (s : State) (i : Nat) (b : Byte) : (s.setInByte i b).err = s.err := rfl
@[simp] theorem State.setInByte_len (s : State) (i : Nat) (b : Byte) : (s.setInByte i b).len = s.len := rfl
@[simp] theorem State.setInByte_outLen (s : State) (i : Nat) (b : Byte) : (s.setInByte i b).outLen = s.outLen := rfl
@[simp] theorem State.setInByte_csumRes (s : State) (i : Nat) (b : Byte) : (s.setInByte i b).csumRes = s.csumRes := rfl
@[simp] theorem State.setInByte_dec (s : State) (i : Nat) (b : Byte) : (s.setInByte i b).dec = s.dec := rfl
@[simp] theorem State.setInByte_inBuf (s : State) (i : Nat) (b : Byte) : (s.setInByte i b).inBuf = Memory.write s.inBuf i b := rfl
@[simp] theorem State.setInByte_outBuf (s : State) (i : Nat) (b : Byte) : (s.setInByte i b).outBuf = s.outBuf := rfl
@[simp] theorem State.setInByte_pending (s : State) (i : Nat) (b : Byte) : (s.setInByte i b).pending = s.pending := rfl
@[simp] theorem State.setInByte_responses (s : State) (i : Nat) (b : Byte) : (s.setInByte i b).responses = s.responses := rfl
@[simp] theorem State.setInByte_resets (s : State) (i : Nat) (b : Byte) : (s.setInByte i b).resets = s.resets := rfl
@[simp] theorem State.setInByte_outByte (s : State) (i : Nat) (b : Byte) (j : Nat) : (s.setInByte i b).outByte j = s.outByte j := rfl
@[simp] theorem State.setInByte_output (s : State) (i : Nat) (b : Byte) : (s.setInByte i b).output = s.output := rfl

/-! ## respond -/

@[simp] theorem State.respond_cfg (s : State) (r : Response) : (s.respond r).cfg = s.cfg := rfl
@[simp] theorem State.respond_operands (s : State) (r : Response) : (s.respond r).operands = s.operands := rfl
@[simp] theorem State.respond_err (s : State) (r : Response) : (s.respond r).err = s.err := rfl
@[simp] theorem State.respond_len (s : State) (r : Response) : (s.respond r).len = s.len := rfl
@[simp] theorem State.respond_outLen (s : State) (r : Response) : (s.respond r).outLen = s.outLen := rfl
@[simp] theorem State.respond_csumRes (s : State) (r : Response) : (s.respond r).csumRes = s.csumRes := rfl
@[simp] theorem State.respond_dec (s : State) (r : Response) : (s.respond r).dec = s.dec := rfl
@[simp] theorem State.respond_inBuf (s : State) (r : Response) : (s.respond r).inBuf = s.inBuf := rfl
@[simp] theorem State.respond_outBuf (s : State) (r : Response) : (s.respond r).outBuf = s.outBuf := rfl
@[simp] theorem State.respond_pending (s : State) (r : Response) : (s.respond r).pending = s.pending := rfl
@[simp] theorem State.respond_responses (s : State) (r : Response) : (s.respond r).responses = s.responses ++ [r] := rfl
@[simp] theorem State.respond_resets (s : State) (r : Response) : (s.respond r).resets = s.resets := rfl
@[simp] theorem State.respond_inByte (s : State) (r : Response) (j : Nat) : (s.respond r).inByte j = s.inByte j := rfl
@[simp] theorem State.respond_input (s : State) (r : Response) : (s.respond r).input = s.input := rfl
@[simp] theorem State.respond_outByte (s : State) (r : Response) (j : Nat) : (s.respond r).outByte j = s.outByte j := rfl
@[simp] theorem State.respond_output (s : State) (r : Response) : (s.respond r).output = s.output := rfl

/-! ## setPending -/

@[simp] theorem State.setPending_cfg (s : State) (es : List HostEvent) : (s.setPending es).cfg = s.cfg := rfl
@[simp] theorem State.setPending_operands (s : State) (es : List HostEvent) : (s.setPending es).operands = s.operands := rfl
@[simp] theorem State.setPending_err (s : State) (es : List HostEvent) : (s.setPending es).err = s.err := rfl
@[simp] theorem State.setPending_len (s : State) (es : List HostEvent) : (s.setPending es).len = s.len := rfl
@[simp] theorem State.setPending_outLen (s : State) (es : List HostEvent) : (s.setPending es).outLen = s.outLen := rfl
@[simp] theorem State.setPending_csumRes (s : State) (es : List HostEvent) : (s.setPending es).csumRes = s.csumRes := rfl
@[simp] theorem State.setPending_dec (s : State) (es : List HostEvent) : (s.setPending es).dec = s.dec := rfl
@[simp] theorem State.setPending_inBuf (s : State) (es : List HostEvent) : (s.setPending es).inBuf = s.inBuf := rfl
@[simp] theorem State.setPending_outBuf (s : State) (es : List HostEvent) : (s.setPending es).outBuf = s.outBuf := rfl
@[simp] theorem State.setPending_pending (s : State) (es : List HostEvent) : (s.setPending es).pending = es := rfl
@[simp] theorem State.setPending_responses (s : State) (es : List HostEvent) : (s.setPending es).responses = s.responses := rfl
@[simp] theorem State.setPending_resets (s : State) (es : List HostEvent) : (s.setPending es).resets = s.resets := rfl
@[simp] theorem State.setPending_inByte (s : State) (es : List HostEvent) (j : Nat) : (s.setPending es).inByte j = s.inByte j := rfl
@[simp] theorem State.setPending_input (s : State) (es : List HostEvent) : (s.setPending es).input = s.input := rfl
@[simp] theorem State.setPending_outByte (s : State) (es : List HostEvent) (j : Nat) : (s.setPending es).outByte j = s.outByte j := rfl
@[simp] theorem State.setPending_output (s : State) (es : List HostEvent) : (s.setPending es).output = s.output := rfl

/-! ## applyReset -/

@[simp] theorem State.applyReset_cfg (s : State) : s.applyReset.cfg = s.cfg := rfl
@[simp] theorem State.applyReset_operands (s : State) : s.applyReset.operands = OperandRegs.reset := rfl
@[simp] theorem State.applyReset_err (s : State) : s.applyReset.err = 0 := rfl
@[simp] theorem State.applyReset_len (s : State) : s.applyReset.len = 0 := rfl
@[simp] theorem State.applyReset_outLen (s : State) : s.applyReset.outLen = 0 := rfl
@[simp] theorem State.applyReset_csumRes (s : State) : s.applyReset.csumRes = 0 := rfl
@[simp] theorem State.applyReset_dec (s : State) : s.applyReset.dec = DecodeRegs.reset := rfl
@[simp] theorem State.applyReset_inBuf (s : State) : s.applyReset.inBuf = [] := rfl
@[simp] theorem State.applyReset_outBuf (s : State) : s.applyReset.outBuf = [] := rfl
@[simp] theorem State.applyReset_pending (s : State) : s.applyReset.pending = s.pending := rfl
@[simp] theorem State.applyReset_responses (s : State) : s.applyReset.responses = s.responses := rfl
@[simp] theorem State.applyReset_resets (s : State) : s.applyReset.resets = s.resets + 1 := rfl

/-! ## powerOn -/

@[simp] theorem State.powerOn_cfg (c : Config) : (State.powerOn c).cfg = c := rfl
@[simp] theorem State.powerOn_operands (c : Config) : (State.powerOn c).operands = OperandRegs.reset := rfl
@[simp] theorem State.powerOn_err (c : Config) : (State.powerOn c).err = 0 := rfl
@[simp] theorem State.powerOn_len (c : Config) : (State.powerOn c).len = 0 := rfl
@[simp] theorem State.powerOn_outLen (c : Config) : (State.powerOn c).outLen = 0 := rfl
@[simp] theorem State.powerOn_csumRes (c : Config) : (State.powerOn c).csumRes = 0 := rfl
@[simp] theorem State.powerOn_dec (c : Config) : (State.powerOn c).dec = DecodeRegs.reset := rfl
@[simp] theorem State.powerOn_inBuf (c : Config) : (State.powerOn c).inBuf = [] := rfl
@[simp] theorem State.powerOn_outBuf (c : Config) : (State.powerOn c).outBuf = [] := rfl
@[simp] theorem State.powerOn_pending (c : Config) : (State.powerOn c).pending = [] := rfl
@[simp] theorem State.powerOn_responses (c : Config) : (State.powerOn c).responses = [] := rfl
@[simp] theorem State.powerOn_resets (c : Config) : (State.powerOn c).resets = 0 := rfl

end Sys2Proof.Machine
end

