-- ==== Sys2Proof/Laws/Memory.lean ====
section
/-! SUPPORT. The laws of the buffers: what a write and a fill leave to be read, and that they keep the canonical form. -/

namespace Sys2Proof.Machine

/-! ## Reading after writing -/

@[simp] theorem Memory.read_nil (i : Nat) : Memory.read [] i = none := rfl

theorem Memory.read_cons (a : Nat) (b : Byte) (m : Memory) (i : Nat) :
    Memory.read ((a, b) :: m) i = if a = i then some b else Memory.read m i := rfl

@[simp] theorem Memory.read_write_same (m : Memory) (i : Nat) (b : Byte) :
    Memory.read (Memory.write m i b) i = some b := by
  induction m with
  | nil => simp [Memory.write, Memory.read]
  | cons c m ih =>
    obtain ⟨a, x⟩ := c
    by_cases h1 : i < a
    · simp [Memory.write, Memory.read, h1]
    · by_cases h2 : i = a
      · simp [Memory.write, Memory.read, h2]
      · have : a ≠ i := fun h => h2 h.symm
        simp [Memory.write, Memory.read, h1, h2, this, ih]

theorem Memory.read_write_other (m : Memory) (i j : Nat) (b : Byte) (h : j ≠ i) :
    Memory.read (Memory.write m i b) j = Memory.read m j := by
  have hij : i ≠ j := fun e => h e.symm
  induction m with
  | nil => simp [Memory.write, Memory.read, hij]
  | cons c m ih =>
    obtain ⟨a, x⟩ := c
    by_cases h1 : i < a
    · simp [Memory.write, Memory.read, h1, hij]
    · by_cases h2 : i = a
      · subst h2; simp [Memory.write, Memory.read, hij]
      · simp [Memory.write, Memory.read, h1, h2, ih]

theorem Memory.read_write (m : Memory) (i j : Nat) (b : Byte) :
    Memory.read (Memory.write m i b) j = if j = i then some b else Memory.read m j := by
  split
  · subst_vars; simp
  · exact Memory.read_write_other m i j b ‹_›

theorem Memory.read_append (m m' : Memory) (i : Nat) :
    Memory.read (m ++ m') i = (Memory.read m i).or (Memory.read m' i) := by
  induction m with
  | nil => simp
  | cons c m ih =>
    obtain ⟨a, x⟩ := c
    by_cases h : a = i <;> simp [Memory.read, h, ih]

theorem Memory.read_cellsFrom (bs : List Byte) (k i : Nat) :
    Memory.read (cellsFrom k bs) i = if k ≤ i then bs[i - k]? else none := by
  induction bs generalizing k with
  | nil => simp [cellsFrom]
  | cons b bs ih =>
    by_cases h : k = i
    · subst h; simp [cellsFrom, Memory.read]
    · rw [cellsFrom, Memory.read_cons, if_neg h, ih]
      by_cases hk : k + 1 ≤ i
      · have h2 : k ≤ i := by omega
        obtain ⟨d, rfl⟩ : ∃ d, i = k + 1 + d := ⟨i - (k + 1), by omega⟩
        have : k + 1 + d - k = d + 1 := by omega
        simp [this, h2]
      · have h2 : ¬ k ≤ i := by omega
        simp [hk, h2]

theorem Memory.read_filter_ge (m : Memory) (n i : Nat) (h : n ≤ i) :
    Memory.read (m.filter (fun c => decide (n ≤ c.1))) i = Memory.read m i := by
  induction m with
  | nil => simp
  | cons c m ih =>
    obtain ⟨a, x⟩ := c
    by_cases ha : n ≤ a
    · simp [ha, Memory.read, ih]
    · have : a ≠ i := by omega
      simp [ha, Memory.read, ih, this]

/-- The spec lemma of `fill`: the bytes of the sequence below its length, and what was there from its length on. -/
theorem Memory.read_fill (bs : List Byte) (m : Memory) (i : Nat) :
    Memory.read (Memory.fill bs m) i = if i < bs.length then bs[i]? else Memory.read m i := by
  rw [Memory.fill, Memory.read_append, Memory.read_cellsFrom]
  by_cases h : i < bs.length
  · simp [h]
  · have : bs.length ≤ i := by omega
    simp [h, Memory.read_filter_ge m _ _ this]

/-! ## The canonical form -/

theorem cellsFrom_lower (bs : List Byte) (k : Nat) : ∀ c ∈ cellsFrom k bs, k ≤ c.1 := by
  induction bs generalizing k with
  | nil => simp [cellsFrom]
  | cons b bs ih =>
    intro c hc
    rcases List.mem_cons.1 hc with rfl | hc
    · exact Nat.le_refl _
    · exact Nat.le_of_succ_le (ih (k + 1) c hc)

theorem cellsFrom_upper (bs : List Byte) (k : Nat) : ∀ c ∈ cellsFrom k bs, c.1 < k + bs.length := by
  induction bs generalizing k with
  | nil => simp [cellsFrom]
  | cons b bs ih =>
    intro c hc
    rcases List.mem_cons.1 hc with rfl | hc
    · simp
    · have := ih (k + 1) c hc
      simp only [List.length_cons]
      omega

theorem cellsFrom_wf (bs : List Byte) (k : Nat) : Memory.wf (cellsFrom k bs) := by
  induction bs generalizing k with
  | nil => exact List.Pairwise.nil
  | cons b bs ih => exact List.Pairwise.cons (fun c hc => cellsFrom_lower bs (k + 1) c hc) (ih (k + 1))

theorem Memory.fill_wf (bs : List Byte) (m : Memory) (h : Memory.wf m) : Memory.wf (Memory.fill bs m) := by
  refine List.pairwise_append.2 ⟨cellsFrom_wf bs 0, h.filter _, fun a ha b hb => ?_⟩
  have h1 := cellsFrom_upper bs 0 a ha
  have h2 := of_decide_eq_true (List.mem_filter.1 hb).2
  omega

theorem Memory.mem_write (m : Memory) (i : Nat) (b : Byte) (c : Host.Cell) (h : c ∈ Memory.write m i b) :
    c = (i, b) ∨ c ∈ m := by
  induction m with
  | nil => simpa [Memory.write] using h
  | cons d m ih =>
    obtain ⟨a, x⟩ := d
    rw [Memory.write] at h
    split at h
    · simpa using h
    · split at h
      · rcases List.mem_cons.1 h with h | h
        · exact .inl h
        · exact .inr (List.mem_cons_of_mem _ h)
      · rcases List.mem_cons.1 h with h | h
        · exact .inr (h ▸ List.mem_cons_self)
        · exact (ih h).imp_right (List.mem_cons_of_mem _)

theorem Memory.write_wf (m : Memory) (i : Nat) (b : Byte) (h : Memory.wf m) : Memory.wf (Memory.write m i b) := by
  induction m with
  | nil => exact List.pairwise_singleton _ _
  | cons d m ih =>
    obtain ⟨a, x⟩ := d
    obtain ⟨hd, ht⟩ := List.pairwise_cons.1 h
    rw [Memory.write]
    split
    · refine List.Pairwise.cons (fun c hc => ?_) h
      rcases List.mem_cons.1 hc with rfl | hc
      · assumption
      · exact Nat.lt_trans ‹i < a› (hd c hc)
    · split
      · subst_vars; exact List.Pairwise.cons hd ht
      · refine List.Pairwise.cons (fun c hc => ?_) (ih ht)
        rcases Memory.mem_write m i b c hc with rfl | hc
        · show a < i; omega
        · exact hd c hc

theorem Memory.mem_fill (bs : List Byte) (m : Memory) (c : Host.Cell) (h : c ∈ Memory.fill bs m) :
    c.1 < bs.length ∨ c ∈ m := by
  rcases List.mem_append.1 h with h | h
  · have := cellsFrom_upper bs 0 c h
    exact .inl (by omega)
  · exact .inr (List.mem_filter.1 h).1

theorem Memory.fill_fill (bs : List Byte) (m : Memory) : Memory.fill bs (Memory.fill bs m) = Memory.fill bs m := by
  have h : (cellsFrom 0 bs).filter (fun c => decide (bs.length ≤ c.1)) = [] := by
    refine List.filter_eq_nil_iff.2 fun c hc => ?_
    have := cellsFrom_upper bs 0 c hc
    simp only [decide_eq_true_eq]; omega
  unfold Memory.fill
  rw [List.filter_append, h, List.filter_filter]
  simp

/-- Two canonical buffers that read the same everywhere are the same list. -/
theorem Memory.ext_read (m m' : Memory) (h : Memory.wf m) (h' : Memory.wf m')
    (e : ∀ i, Memory.read m i = Memory.read m' i) : m = m' := by
  have below : ∀ (m : Memory) (i : Nat), (∀ c ∈ m, i < c.1) → Memory.read m i = none := by
    intro m i hm
    induction m with
    | nil => rfl
    | cons d m ih =>
      obtain ⟨a, x⟩ := d
      have ha : a ≠ i := Nat.ne_of_gt (hm (a, x) List.mem_cons_self)
      rw [Memory.read_cons, if_neg ha]
      exact ih fun c hc => hm c (List.mem_cons_of_mem _ hc)
  induction m generalizing m' with
  | nil =>
    cases m' with
    | nil => rfl
    | cons d m' => obtain ⟨a, x⟩ := d; simpa [Memory.read] using e a
  | cons d m ih =>
    obtain ⟨a, x⟩ := d
    obtain ⟨hd, ht⟩ := List.pairwise_cons.1 h
    cases m' with
    | nil => simpa [Memory.read] using e a
    | cons d' m' =>
      obtain ⟨a', x'⟩ := d'
      obtain ⟨hd', ht'⟩ := List.pairwise_cons.1 h'
      have haa : a = a' := by
        rcases Nat.lt_trichotomy a a' with hlt | heq | hgt
        · have := e a
          rw [below ((a', x') :: m') a (by
            intro c hc
            rcases List.mem_cons.1 hc with rfl | hc
            · exact hlt
            · exact Nat.lt_trans hlt (hd' c hc))] at this
          simp [Memory.read] at this
        · exact heq
        · have := e a'
          rw [below ((a, x) :: m) a' (by
            intro c hc
            rcases List.mem_cons.1 hc with rfl | hc
            · exact hgt
            · exact Nat.lt_trans hgt (hd c hc))] at this
          simp [Memory.read] at this
      subst haa
      have hx : x = x' := by simpa [Memory.read] using e a
      subst hx
      congr 1
      refine ih m' ht ht' fun i => ?_
      by_cases hi : a = i
      · subst hi
        rw [below m a hd, below m' a hd']
      · simpa [Memory.read, hi] using e i

/-! ## The bytes of a state after an update -/

@[simp] theorem State.inBytes_length (s : State) (n : Nat) : (s.inBytes n).length = n := by simp [State.inBytes]

@[simp] theorem State.outBytes_length (s : State) (n : Nat) : (s.outBytes n).length = n := by simp [State.outBytes]

@[simp] theorem State.input_length (s : State) : s.input.length = s.len.toNat := by simp [State.input]

@[simp] theorem State.output_length (s : State) : s.output.length = s.outLen.toNat := by simp [State.output]

theorem State.inBytes_get (s : State) (n i : Nat) (h : i < n) : (s.inBytes n)[i]? = some (s.inByte i) := by
  simp [State.inBytes, h]

theorem State.outBytes_get (s : State) (n i : Nat) (h : i < n) : (s.outBytes n)[i]? = some (s.outByte i) := by
  simp [State.outBytes, h]

theorem State.putOutput_outByte (s : State) (bs : List Byte) (i : Nat) :
    (s.putOutput bs).outByte i = if h : i < bs.length then bs[i] else s.outByte i := by
  simp only [State.outByte, State.putOutput_outBuf, State.putOutput_resets, Memory.read_fill]
  by_cases h : i < bs.length <;> simp [h]

theorem State.fillInput_inByte (s : State) (bs : List Byte) (i : Nat) :
    (s.fillInput bs).inByte i = if h : i < bs.length then bs[i] else s.inByte i := by
  simp only [State.inByte, State.fillInput_inBuf, State.fillInput_resets, Memory.read_fill]
  by_cases h : i < bs.length <;> simp [h]

theorem State.setInByte_inByte (s : State) (i j : Nat) (b : Byte) :
    (s.setInByte i b).inByte j = if j = i then b else s.inByte j := by
  simp only [State.inByte, State.setInByte_inBuf, State.setInByte_resets, Memory.read_write]
  by_cases h : j = i <;> simp [h]

/-- What was put out is what is read back. -/
theorem State.putOutput_outBytes (s : State) (bs : List Byte) : (s.putOutput bs).outBytes bs.length = bs := by
  refine List.ext_getElem (by simp) fun i h1 h2 => ?_
  simp [State.outBytes, State.putOutput_outByte, h2]

theorem State.fillInput_inBytes (s : State) (bs : List Byte) : (s.fillInput bs).inBytes bs.length = bs := by
  refine List.ext_getElem (by simp) fun i h1 h2 => ?_
  simp [State.inBytes, State.fillInput_inByte, h2]

end Sys2Proof.Machine
end

