-- ==== Sys2Proof/Laws/Arith.lean ====
section
/-! SUPPORT. The small lemmas of the checksum arithmetic, of splicing and of the byte order. -/

namespace Sys2Proof.Machine

/-! ## The word sum -/

@[simp] theorem wsum_nil : wsum [] = 0 := rfl

@[simp] theorem wsum_singleton (a : Byte) : wsum [a] = a.toNat * 256 := rfl

@[simp] theorem wsum_pair (a b : Byte) (bs : List Byte) :
    wsum (a :: b :: bs) = (a.toNat * 256 + b.toNat) + wsum bs := rfl

/-- Induction on a byte sequence two bytes at a time, as `wsum` reads it. -/
theorem byte_pairs_induction {P : List Byte → Prop} (h0 : P []) (h1 : ∀ a, P [a])
    (h2 : ∀ a b bs, P bs → P (a :: b :: bs)) : ∀ bs, P bs
  | [] => h0
  | [a] => h1 a
  | a :: b :: bs => h2 a b bs (byte_pairs_induction h0 h1 h2 bs)

/-- Cutting a sequence at an even place cuts its word sum. -/
theorem wsum_append_even (xs ys : List Byte) (h : xs.length % 2 = 0) : wsum (xs ++ ys) = wsum xs + wsum ys := by
  induction xs using byte_pairs_induction with
  | h0 => simp
  | h1 a => simp at h
  | h2 a b bs ih =>
    have : bs.length % 2 = 0 := by simp only [List.length_cons] at h; omega
    simp [ih this]; omega

theorem wsum_le (bs : List Byte) : wsum bs ≤ (bs.length + 1) / 2 * 65535 := by
  induction bs using byte_pairs_induction with
  | h0 => simp
  | h1 a => have := a.isLt; simp; omega
  | h2 a b bs ih =>
    have := a.isLt; have := b.isLt
    simp only [wsum_pair, List.length_cons]
    omega

/-! ## The fold -/

theorem foldStep_lt (s : Nat) (h : 0xFFFF < s) : foldStep s < s := by unfold foldStep; omega

theorem foldStep_pos (s : Nat) (h : 0 < s) : 0 < foldStep s := by unfold foldStep; omega

theorem foldStep_mod (s : Nat) : foldStep s % 65535 = s % 65535 := by unfold foldStep; omega

theorem foldRounds_small (fuel s : Nat) (h : s ≤ 0xFFFF) : foldRounds fuel s = s := by
  cases fuel with
  | zero => rfl
  | succ n => rw [foldRounds, if_neg (by omega)]

/-- Everything the loop keeps and everything it reaches, with enough fuel. -/
theorem foldRounds_spec (fuel s : Nat) (h : s ≤ 0xFFFF + fuel) :
    foldRounds fuel s ≤ 0xFFFF ∧ foldRounds fuel s % 65535 = s % 65535 ∧ (0 < s → 0 < foldRounds fuel s) := by
  induction fuel generalizing s with
  | zero => exact ⟨by simpa [foldRounds] using h, rfl, id⟩
  | succ n ih =>
    by_cases hs : 0xFFFF < s
    · rw [foldRounds, if_pos hs]
      have h1 := foldStep_lt s hs
      obtain ⟨ha, hb, hc⟩ := ih (foldStep s) (by omega)
      exact ⟨ha, hb.trans (foldStep_mod s), fun hp => hc (foldStep_pos s hp)⟩
    · rw [foldRounds_small (n + 1) s (by omega)]
      exact ⟨by omega, rfl, id⟩

theorem fold_le (s : Nat) : fold s ≤ 0xFFFF := (foldRounds_spec s s (by omega)).1

theorem fold_mod (s : Nat) : fold s % 65535 = s % 65535 := (foldRounds_spec s s (by omega)).2.1

theorem fold_pos (s : Nat) (h : 0 < s) : 0 < fold s := (foldRounds_spec s s (by omega)).2.2 h

@[simp] theorem fold_zero : fold 0 = 0 := rfl

theorem fold_small (s : Nat) (h : s ≤ 0xFFFF) : fold s = s := foldRounds_small s s h

/-- A value of 0 .. 0xFFFF is known from its remainder by 65535 and whether it is positive, so `fold` is known from those of its
argument. -/
theorem fold_eq_of_mod (s v : Nat) (hv : v ≤ 0xFFFF) (hm : v % 65535 = s % 65535) (hp : 0 < v ↔ 0 < s) : fold s = v := by
  have h1 := fold_le s
  have h2 := fold_mod s
  have h3 := fold_pos s
  rcases Nat.eq_zero_or_pos s with rfl | hs
  · simp at hp; simp [hp]
  · have := hp.2 hs
    have := h3 hs
    omega

@[simp] theorem cksum_toNat (bs : List Byte) : (cksum bs).toNat = 0xFFFF - fold (wsum bs) := by
  have := fold_le (wsum bs)
  unfold cksum
  rw [BitVec.toNat_not, BitVec.toNat_ofNat, Nat.mod_eq_of_lt (by omega)]

/-! ## Byte order -/

@[simp] theorem bytes2_length (v : Half) : (bytes2 v).length = 2 := by simp [bytes2]

@[simp] theorem bytes4_length (v : Word) : (bytes4 v).length = 4 := by simp [bytes4]

/-- The two bytes of a 16-bit value are one word of the sum, the value itself. -/
theorem bytes2_value (v : Half) : (v.extractLsb' 8 8).toNat * 256 + (v.extractLsb' 0 8).toNat = v.toNat := by
  have := v.isLt
  simp only [BitVec.extractLsb'_toNat, Nat.shiftRight_eq_div_pow]
  omega

theorem wsum_bytes2 (v : Half) (bs : List Byte) : wsum (bytes2 v ++ bs) = v.toNat + wsum bs := by
  simp only [bytes2, List.cons_append, List.nil_append, wsum_pair]
  rw [bytes2_value]

/-- Reading back a 16-bit value stored big-endian. -/
theorem append_extract2 (v : Half) : (v.extractLsb' 8 8 ++ v.extractLsb' 0 8 : BitVec (8 + 8)) = v := by
  refine BitVec.eq_of_getLsbD_eq fun i hi => ?_
  rw [BitVec.getLsbD_append]
  by_cases h : i < 8
  · simp [h]
  · simp [h, show i - 8 < 8 by omega, show 8 + (i - 8) = i by omega]

/-- Reading back a 32-bit value stored big-endian. -/
theorem append_extract4 (v : Word) :
    (v.extractLsb' 24 8 ++ v.extractLsb' 16 8 ++ v.extractLsb' 8 8 ++ v.extractLsb' 0 8 : BitVec (8 + 8 + 8 + 8)) = v := by
  refine BitVec.eq_of_getLsbD_eq fun i hi => ?_
  simp only [BitVec.getLsbD_append]
  by_cases h : i < 8
  · simp [h]
  · by_cases h1 : i - 8 < 8
    · simp [h, h1, show 8 + (i - 8) = i by omega]
    · by_cases h2 : i - 8 - 8 < 8
      · simp [h, h1, h2, show 16 + (i - 8 - 8) = i by omega]
      · simp [h, h1, h2, show i - 8 - 8 - 8 < 8 by omega, show 24 + (i - 8 - 8 - 8) = i by omega]

/-- The value of two bytes read big-endian. -/
theorem memRead2_toNat (f : Nat → Byte) (a : Nat) :
    (memRead2 f a).toNat = (f a).toNat * 256 + (f (a + 1)).toNat := by
  unfold memRead2
  rw [BitVec.toNat_append, ← Nat.shiftLeft_add_eq_or_of_lt (f (a + 1)).isLt, Nat.shiftLeft_eq]

/-- The value of four bytes read big-endian. -/
theorem memRead4_toNat (f : Nat → Byte) (a : Nat) :
    (memRead4 f a).toNat = (f a).toNat * 2 ^ 24 + (f (a + 1)).toNat * 2 ^ 16 + (f (a + 2)).toNat * 2 ^ 8
      + (f (a + 3)).toNat := by
  unfold memRead4
  rw [BitVec.toNat_append, ← Nat.shiftLeft_add_eq_or_of_lt (f (a + 3)).isLt,
    BitVec.toNat_append, ← Nat.shiftLeft_add_eq_or_of_lt (f (a + 2)).isLt,
    BitVec.toNat_append, ← Nat.shiftLeft_add_eq_or_of_lt (f (a + 1)).isLt]
  simp only [Nat.shiftLeft_eq]
  omega

/-- A 16-bit value stood big-endian at `a` is what is read there. -/
theorem memRead2_of_bytes (f : Nat → Byte) (a : Nat) (v : Half) (h0 : f a = v.extractLsb' 8 8)
    (h1 : f (a + 1) = v.extractLsb' 0 8) : memRead2 f a = v := by
  rw [memRead2, h0, h1]; exact append_extract2 v

/-- A 32-bit value stood big-endian at `a` is what is read there. -/
theorem memRead4_of_bytes (f : Nat → Byte) (a : Nat) (v : Word) (h0 : f a = v.extractLsb' 24 8)
    (h1 : f (a + 1) = v.extractLsb' 16 8) (h2 : f (a + 2) = v.extractLsb' 8 8) (h3 : f (a + 3) = v.extractLsb' 0 8) :
    memRead4 f a = v := by
  rw [memRead4, h0, h1, h2, h3]; exact append_extract4 v

/-! ## Splicing -/

@[simp] theorem splice_length (t : List Byte) (a : Nat) (bs : List Byte) (h : a + bs.length ≤ t.length) :
    (splice t a bs).length = t.length := by
  simp only [splice, List.length_append, List.length_take, List.length_drop]; omega

/-- The spec lemma of `splice`: the stored bytes inside, the old ones outside. -/
theorem splice_get (t : List Byte) (a : Nat) (bs : List Byte) (i : Nat) (h : a + bs.length ≤ t.length) :
    (splice t a bs)[i]? = if a ≤ i ∧ i < a + bs.length then bs[i - a]? else t[i]? := by
  unfold splice
  by_cases h1 : i < a
  · rw [if_neg (by omega), List.append_assoc, List.getElem?_append_left (by rw [List.length_take]; omega),
      List.getElem?_take, if_pos h1]
  · by_cases h2 : i < a + bs.length
    · rw [if_pos (by omega), List.append_assoc, List.getElem?_append_right (by rw [List.length_take]; omega),
        List.length_take, List.getElem?_append_left (by omega)]
      congr 1; omega
    · rw [if_neg (by omega), List.getElem?_append_right (by rw [List.length_append, List.length_take]; omega),
        List.length_append, List.length_take, List.getElem?_drop]
      congr 1; omega

/-- Storing a 16-bit value big-endian is storing its two bytes, one after the other. -/
theorem splice_bytes2_eq_set (t : List Byte) (a : Nat) (v : Half) (h : a + 2 ≤ t.length) :
    splice t a (bytes2 v) = (t.set a (v.extractLsb' 8 8)).set (a + 1) (v.extractLsb' 0 8) := by
  refine List.ext_getElem? fun i => ?_
  rw [splice_get _ _ _ _ (by simpa using h), bytes2_length]
  simp only [List.getElem?_set, List.length_set]
  rcases Nat.lt_trichotomy i a with h1 | h1 | h1
  · rw [if_neg (by omega), if_neg (by omega), if_neg (by omega)]
  · subst h1
    rw [if_pos (by omega), if_neg (by omega), if_pos rfl, if_pos (by omega), Nat.sub_self]; rfl
  · by_cases h2 : i = a + 1
    · subst h2
      rw [if_pos (by omega), if_pos rfl, if_pos (by omega), Nat.add_sub_cancel_left]; rfl
    · rw [if_neg (by omega), if_neg (by omega), if_neg (by omega)]

/-- A sequence is what stands before an even place, one whole word, and what stands after. -/
theorem wsum_splice2 (t : List Byte) (a : Nat) (v : Half) (he : a % 2 = 0) (h : a + 2 ≤ t.length) :
    wsum (splice t a (bytes2 v)) = wsum (t.take a) + v.toNat + wsum (t.drop (a + 2)) := by
  have hl : (t.take a).length % 2 = 0 := by rw [List.length_take, Nat.min_eq_left (by omega)]; exact he
  unfold splice
  rw [List.append_assoc, wsum_append_even _ _ hl, wsum_bytes2, bytes2_length]; omega

end Sys2Proof.Machine
end

