-- ==== Sys2Proof/Laws/Exec.lean ====
section
/-! SUPPORT. One lemma per shared operation and per command that says once everything it can do: every command answers a next
state, which is an abort (STATUS.ERR replaced, nothing else) or the completed result. -/

namespace Sys2Proof.Machine

/-! ## How a command ends, and the operands -/

theorem raise_next (k : ErrKind) (s : State) : raise k s = .next (s.setErr k.code) := rfl

theorem complete_next (s : State) : complete s = .next (s.setErr 0) := rfl

@[simp] theorem andThen_next (s : State) (f : State → State) : andThen (.next s) f = .next (f s) := rfl

@[simp] theorem nextOf_next (s : State) : nextOf (.next s) = some s := rfl

@[simp] theorem ErrKind.code_illegalCommand : ErrKind.code .illegalCommand = 1 := rfl
@[simp] theorem ErrKind.code_badLength : ErrKind.code .badLength = 2 := rfl
@[simp] theorem ErrKind.code_overflow : ErrKind.code .overflow = 3 := rfl
@[simp] theorem ErrKind.code_malformedReply : ErrKind.code .malformedReply = 4 := rfl

theorem State.inputTooLong_iff (s : State) : s.inputTooLong = true ↔ s.cfg.cap < s.len.toNat := decide_eq_true_iff

theorem State.outputTooLong_iff (s : State) (n : Nat) : s.outputTooLong n = true ↔ s.cfg.cap < n := decide_eq_true_iff

theorem headerLen_eq (opt : Byte) : headerLen opt = if opt = 0 then 20 else 24 := by
  unfold headerLen ihlOf; split <;> rfl

/-- The IPv4 header has exactly `H` bytes. -/
theorem ipHeader_length (o : OperandRegs) (n : Nat) : (ipHeader o n).length = headerLen o.ipOpt := by
  unfold ipHeader optionBytes headerLen ihlOf
  split <;> rfl

theorem echoRequest_length (id seq : Half) (payload : List Byte) :
    (echoRequest id seq payload).length = 8 + payload.length := by
  simp [echoRequest, bytes2]; omega

/-- A header or a message with its checksum spliced in is as long as without. -/
theorem splice_bytes2_length (t : List Byte) (a : Nat) (v : Half) (h : a + 2 ≤ t.length) :
    (splice t a (bytes2 v)).length = t.length := splice_length t a _ h

/-! ## The seven commands -/

theorem execCsum_eq (s : State) : execCsum s = .next
    (if s.cfg.cap < s.len.toNat then s.setErr 2 else (s.setCsumRes (cksum s.input)).setErr 0) := by
  by_cases h : s.cfg.cap < s.len.toNat <;>
    simp [execCsum, State.inputTooLong, h, raise_next, complete_next]

theorem zeroChecksumField_eq (off : Nat) (s : State) : zeroChecksumField off s = .next
    (if s.cfg.cap < s.len.toNat then s.setErr 2
     else if s.len.toNat < off + 2 then s.setErr 2
     else (s.putOutput (splice s.input off [0x00, 0x00])).setErr 0) := by
  by_cases h : s.cfg.cap < s.len.toNat <;> by_cases h' : s.len.toNat < off + 2 <;>
    simp [zeroChecksumField, State.inputTooLong, h, h', raise_next, complete_next]

/-- The datagram that BLDDG delivers. -/
theorem execBlddg_eq (s : State) : execBlddg s = .next
    (if s.cfg.cap < s.len.toNat then s.setErr 2
     else if s.cfg.cap < 8 + s.len.toNat then s.setErr 3
     else ((s.putOutput (splice (echoRequest s.operands.icmpId s.operands.icmpSeq s.input) 2
        (bytes2 (cksum (echoRequest s.operands.icmpId s.operands.icmpSeq s.input))))).setCsumRes
        (cksum (echoRequest s.operands.icmpId s.operands.icmpSeq s.input))).setErr 0) := by
  by_cases h : s.cfg.cap < s.len.toNat <;> by_cases h' : s.cfg.cap < 8 + s.len.toNat <;>
    simp [execBlddg, State.inputTooLong, State.outputTooLong, h, h', raise_next, complete_next]

/-- The packet that BLDPKT delivers. -/
theorem execBldpkt_eq (s : State) : execBldpkt s = .next
    (if s.cfg.cap < s.len.toNat then s.setErr 2
     else if s.cfg.cap < headerLen s.operands.ipOpt + s.len.toNat then s.setErr 3
     else ((s.putOutput (splice (ipHeader s.operands s.len.toNat) 10
        (bytes2 (cksum (ipHeader s.operands s.len.toNat))) ++ s.input)).setCsumRes
        (cksum (ipHeader s.operands s.len.toNat))).setErr 0) := by
  by_cases h : s.cfg.cap < s.len.toNat <;> by_cases h' : s.cfg.cap < headerLen s.operands.ipOpt + s.len.toNat <;>
    simp [execBldpkt, State.inputTooLong, State.outputTooLong, h, h', raise_next, complete_next]

theorem execDecode_eq (s : State) : execDecode s = .next
    (if s.cfg.cap < s.len.toNat then s.setErr 2
     else if s.len.toNat < 28 then s.setErr 4
     else if versionNibble (s.inByte 0) ≠ 4 then s.setErr 4
     else (s.setDec (unpack s.inByte)).setErr 0) := by
  simp only [execDecode, State.inputTooLong_iff, raise_next, complete_next, ErrKind.code_badLength,
    ErrKind.code_malformedReply, ← apply_ite Host.Outcome.next]

theorem execMove_eq (s : State) :
    execMove s = .next (((s.fillInput s.output).setLen s.outLen).setErr 0) := rfl

/-- The nibble of the version check, as a number. -/
theorem versionNibble_eq_four (b : Byte) : versionNibble b = 4 ↔ b.toNat / 16 = 4 := by
  have hb := b.isLt
  rw [← BitVec.toNat_inj, versionNibble, BitVec.extractLsb'_toNat, Nat.shiftRight_eq_div_pow]
  show b.toNat / 16 % 16 = 4 ↔ _
  omega

/-- Everything a command can do, for the rules that hold of all commands: it answers a next state; it leaves the host's side,
CAP and the operand registers alone; and it aborts, changing STATUS.ERR alone, or completes. -/
theorem exec_next (i : Instr) (s : State) : ∃ t, exec i s = .next t ∧
    t.cfg = s.cfg ∧ t.operands = s.operands ∧ t.pending = s.pending ∧ t.responses = s.responses ∧ t.resets = s.resets := by
  cases i <;> simp only [exec, execZcfIp, execZcfIcmp, execCsum_eq, zeroChecksumField_eq, execBlddg_eq, execBldpkt_eq,
    execDecode_eq, execMove_eq]
  all_goals refine ⟨_, rfl, ?_⟩
  all_goals (try split_ifs) <;> simp

end Sys2Proof.Machine
end

