-- ==== Sys2Proof/Laws/Bus.lean ====
section
/-! SUPPORT. The laws of the address map and of the transactions. -/

namespace Sys2Proof.Machine

/-! ## The address map -/

theorem regAt_offset (r : Reg) : regAt (Reg.offset r) = some r := by cases r <;> rfl

theorem Reg.offset_lt (r : Reg) : Reg.offset r < 0x80 := by cases r <;> decide

theorem regAt_some (a : Nat) (r : Reg) (h : regAt a = some r) : a = Reg.offset r := by
  have := List.find?_some h
  exact (of_decide_eq_true this).symm

@[simp] theorem locate_offset (cap : Nat) (r : Reg) : locate cap (Reg.offset r) = .register r := by
  have := Reg.offset_lt r
  unfold locate inWindow outWindow
  rw [if_neg (by omega), if_neg (by omega), regAt_offset]

@[simp] theorem locate_cmd (cap : Nat) : locate cap 0 = .register .cmd := locate_offset cap .cmd

theorem regAt_high (a : Nat) (h : 0x80 ≤ a) : regAt a = none := by
  rcases hr : regAt a with _ | r
  · rfl
  · have := regAt_some a r hr; have := Reg.offset_lt r; omega

theorem locate_in (cap i : Nat) (h : i < cap) (hc : i < 0x10000) : locate cap (0x10000 + i) = .inByte i := by
  unfold locate inWindow
  rw [if_pos (by omega), Nat.add_sub_cancel_left]

theorem locate_out (cap i : Nat) (h : i < cap) (hc : i < 0x10000) : locate cap (0x20000 + i) = .outByte i := by
  unfold locate inWindow outWindow
  rw [if_neg (by omega), if_pos (by omega), Nat.add_sub_cancel_left]

/-- The spec lemma of `locate`: what each answer says of the offset. -/
theorem locate_spec (cap a : Nat) :
    match locate cap a with
    | .register r => a = Reg.offset r
    | .inByte i => a = 0x10000 + i ∧ i < cap ∧ i < 0x10000
    | .outByte i => a = 0x20000 + i ∧ i < cap ∧ i < 0x10000
    | .unmapped => regAt a = none ∧ ¬ (0x10000 ≤ a ∧ a < 0x20000 ∧ a < 0x10000 + cap) ∧
        ¬ (0x20000 ≤ a ∧ a < 0x30000 ∧ a < 0x20000 + cap) := by
  unfold locate inWindow outWindow
  by_cases h1 : 0x10000 ≤ a ∧ a < 0x10000 + 0x10000 ∧ a - 0x10000 < cap
  · rw [if_pos h1]; exact ⟨by omega, h1.2.2, by omega⟩
  · by_cases h2 : 0x20000 ≤ a ∧ a < 0x20000 + 0x10000 ∧ a - 0x20000 < cap
    · rw [if_neg h1, if_pos h2]; exact ⟨by omega, h2.2.2, by omega⟩
    · rw [if_neg h1, if_neg h2]
      rcases hr : regAt a with _ | r
      · exact ⟨rfl, by omega, by omega⟩
      · exact regAt_some a r hr

/-- An offset that is a register's is not a buffer byte's. -/
theorem locate_eq_register (cap a : Nat) (r : Reg) (h : locate cap a = .register r) : a = Reg.offset r := by
  have := locate_spec cap a
  rw [h] at this; exact this

theorem locate_eq_cmd (cap a : Nat) (h : locate cap a = .register .cmd) : a = 0x000 :=
  locate_eq_register cap a .cmd h

/-! ## Commands through the bus -/

theorem runCommandWord_ok (w : Word) (i : Instr) (s : State) (h : decode w = .ok i) : runCommandWord w s = exec i s := by
  unfold runCommandWord; rw [h]

theorem runCommandWord_error (w : Word) (e : DecodeError) (s : State) (h : decode w = .error e) :
    runCommandWord w s = .next (s.setErr 1) := by
  unfold runCommandWord; rw [h]; rfl

/-- A word written to CMD answers a next state with the host's side untouched. -/
theorem runCommandWord_next (w : Word) (s : State) : ∃ t, runCommandWord w s = .next t ∧
    t.cfg = s.cfg ∧ t.operands = s.operands ∧ t.pending = s.pending ∧ t.responses = s.responses ∧ t.resets = s.resets := by
  rcases h : decode w with e | i
  · exact ⟨_, runCommandWord_error w e s h, rfl, rfl, rfl, rfl, rfl⟩
  · rw [runCommandWord_ok w i s h]; exact exec_next i s

theorem hostWrite32_cmd (w : Word) (s : State) :
    hostWrite32 0x000 w s = andThen (runCommandWord w s) (fun t => t.respond .ok) := by
  unfold hostWrite32; rw [locate_cmd]

/-- A write of a register that is not CMD. -/
theorem hostWrite32_reg (r : Reg) (v : Word) (s : State) (h : r ≠ .cmd) :
    hostWrite32 (Reg.offset r) v s = .next ((s.writeReg r v).respond .ok) := by
  unfold hostWrite32; rw [locate_offset]
  cases r <;> first | rfl | exact absurd rfl h

theorem hostRead32_reg (r : Reg) (s : State) :
    hostRead32 (Reg.offset r) s = .next (s.respond (.okWord (s.readReg r))) := by
  unfold hostRead32; rw [locate_offset]

/-- What a transaction that starts no command can do: it gives one response, and beyond that writes one register, or one byte of
IN, or nothing. -/
theorem transact_cases (tr : Transaction) (s : State) (h : ∀ w, tr ≠ .write32 0x000 w) :
    (∃ r, transact tr s = .next (s.respond r)) ∨
    (∃ r v, tr = .write32 (Reg.offset r) v ∧ r ≠ .cmd ∧ transact tr s = .next ((s.writeReg r v).respond .ok)) ∨
    (∃ i b, tr = .write8 (0x10000 + i) b ∧ i < s.cfg.cap ∧ i < 0x10000 ∧
      transact tr s = .next ((s.setInByte i b).respond .ok)) := by
  cases tr with
  | write32 a v =>
    have hs := locate_spec s.cfg.cap a
    rcases hl : locate s.cfg.cap a with r | i | i | _ <;> rw [hl] at hs
    · have hr : r ≠ .cmd := by rintro rfl; exact h v (by rw [hs]; rfl)
      subst hs
      exact .inr (.inl ⟨r, v, rfl, hr, hostWrite32_reg r v s hr⟩)
    all_goals exact .inl ⟨.busError, by simp [transact, hostWrite32, hl]⟩
  | read32 a =>
    rcases hl : locate s.cfg.cap a with r | i | i | _
    · exact .inl ⟨.okWord (s.readReg r), by simp [transact, hostRead32, hl]⟩
    all_goals exact .inl ⟨.busError, by simp [transact, hostRead32, hl]⟩
  | write8 a b =>
    have hs := locate_spec s.cfg.cap a
    rcases hl : locate s.cfg.cap a with r | i | i | _ <;> rw [hl] at hs
    · exact .inl ⟨.busError, by simp [transact, hostWrite8, hl]⟩
    · exact .inr (.inr ⟨i, b, by rw [hs.1], hs.2.1, hs.2.2, by simp [transact, hostWrite8, hl]⟩)
    · exact .inl ⟨.ok, by simp [transact, hostWrite8, hl]⟩
    · exact .inl ⟨.busError, by simp [transact, hostWrite8, hl]⟩
  | read8 a =>
    rcases hl : locate s.cfg.cap a with r | i | i | _
    · exact .inl ⟨.busError, by simp [transact, hostRead8, hl]⟩
    · exact .inl ⟨.okByte (s.inByte i), by simp [transact, hostRead8, hl]⟩
    · exact .inl ⟨.okByte (s.outByte i), by simp [transact, hostRead8, hl]⟩
    · exact .inl ⟨.busError, by simp [transact, hostRead8, hl]⟩

/-! ## Register widths and events -/

theorem widen_toNat {w : Nat} (v : BitVec w) (h : w ≤ 32) : (widen v).toNat = v.toNat := by
  rw [widen, BitVec.toNat_setWidth, Nat.mod_eq_of_lt]
  exact lt_of_lt_of_le v.isLt (Nat.pow_le_pow_right (by decide) h)

theorem narrow_toNat (w : Nat) (v : Word) : (narrow w v).toNat = v.toNat % 2 ^ w := by
  rw [narrow, BitVec.toNat_setWidth]

/-- What the next event is taken to do. -/
theorem nextEvent_cons (s : State) (e : HostEvent) (es : List HostEvent) (h : s.pending = e :: es) :
    nextEvent s = perform e (s.setPending es) := by
  rw [nextEvent, h]

/-! ## What a register write leaves alone -/

@[simp] theorem State.writeReg_cfg (s : State) (r : Reg) (v : Word) : (s.writeReg r v).cfg = s.cfg := by
  cases r <;> rfl

@[simp] theorem State.writeReg_err (s : State) (r : Reg) (v : Word) : (s.writeReg r v).err = s.err := by
  cases r <;> rfl

@[simp] theorem State.writeReg_outLen (s : State) (r : Reg) (v : Word) : (s.writeReg r v).outLen = s.outLen := by
  cases r <;> rfl

@[simp] theorem State.writeReg_csumRes (s : State) (r : Reg) (v : Word) : (s.writeReg r v).csumRes = s.csumRes := by
  cases r <;> rfl

@[simp] theorem State.writeReg_dec (s : State) (r : Reg) (v : Word) : (s.writeReg r v).dec = s.dec := by
  cases r <;> rfl

@[simp] theorem State.writeReg_inBuf (s : State) (r : Reg) (v : Word) : (s.writeReg r v).inBuf = s.inBuf := by
  cases r <;> rfl

@[simp] theorem State.writeReg_outBuf (s : State) (r : Reg) (v : Word) : (s.writeReg r v).outBuf = s.outBuf := by
  cases r <;> rfl

@[simp] theorem State.writeReg_pending (s : State) (r : Reg) (v : Word) : (s.writeReg r v).pending = s.pending := by
  cases r <;> rfl

@[simp] theorem State.writeReg_responses (s : State) (r : Reg) (v : Word) : (s.writeReg r v).responses = s.responses := by
  cases r <;> rfl

@[simp] theorem State.writeReg_resets (s : State) (r : Reg) (v : Word) : (s.writeReg r v).resets = s.resets := by
  cases r <;> rfl

@[simp] theorem State.writeReg_inByte (s : State) (r : Reg) (v : Word) (i : Nat) :
    (s.writeReg r v).inByte i = s.inByte i := by cases r <;> rfl

@[simp] theorem State.writeReg_outByte (s : State) (r : Reg) (v : Word) (i : Nat) :
    (s.writeReg r v).outByte i = s.outByte i := by cases r <;> rfl

/-- A register write changes LEN and the operand registers at most. -/
theorem State.writeReg_frame (s : State) (r : Reg) (v : Word) :
    s.writeReg r v = { s with len := (s.writeReg r v).len, operands := (s.writeReg r v).operands } := by
  cases r <;> rfl

theorem performAll_cons (e : HostEvent) (es : List HostEvent) (s t : State) (h : perform e s = .next t) :
    performAll (e :: es) s = performAll es t := by
  rw [performAll, h]

theorem performAll_append (es fs : List HostEvent) (s t : State) (h : performAll es s = .next t) :
    performAll (es ++ fs) s = performAll fs t := by
  induction es generalizing s with
  | nil => rw [performAll] at h; cases h; rfl
  | cons e es ih =>
    rcases hp : perform e s with u | r | r
    · rw [performAll_cons e es s u hp] at h
      rw [List.cons_append, performAll_cons e _ s u hp]
      exact ih u h
    all_goals rw [performAll, hp] at h; cases h

end Sys2Proof.Machine
end

