-- ==== Sys2Proof/Laws/PerInstr.lean ====
section
/-! SUPPORT. The facts about commands as syntax, one lemma per constructor. -/

namespace Sys2Proof.Laws

/-- A command's word decodes to the command. -/
def RoundTrip.Statement (i : Instr) : Prop := i.wellFormed = true ∧ decode (encode i) = .ok i

theorem RoundTrip.csum : RoundTrip.Statement .csum := ⟨rfl, rfl⟩
theorem RoundTrip.zcfIp : RoundTrip.Statement .zcfIp := ⟨rfl, rfl⟩
theorem RoundTrip.zcfIcmp : RoundTrip.Statement .zcfIcmp := ⟨rfl, rfl⟩
theorem RoundTrip.blddg : RoundTrip.Statement .blddg := ⟨rfl, rfl⟩
theorem RoundTrip.bldpkt : RoundTrip.Statement .bldpkt := ⟨rfl, rfl⟩
theorem RoundTrip.decode : RoundTrip.Statement .decode := ⟨rfl, rfl⟩
theorem RoundTrip.move : RoundTrip.Statement .move := ⟨rfl, rfl⟩

end Sys2Proof.Laws
end

