-- ==== Sys2Proof/Tests/Slice0.lean ====
section
/-! SUPPORT. Tests: ill-formed terms, command words bit by bit, vectors of 95_test_vectors.md (named by their ids), and for
every statement with hypotheses a witness that meets them (test_meets_<statement>). Expected values are the spec's. -/

namespace Sys2Proof.Tests

open Sys2Proof.Machine

/-- A block with capacity `cap` whose host loaded `bs`. -/
def loaded (cap : Nat) (bs : List Byte) : State :=
  { State.powerOn ⟨cap⟩ with inBuf := cellsFrom 0 bs, len := BitVec.ofNat 16 bs.length }

/-- A block with capacity `cap` whose LEN is `n`, with nothing loaded. -/
def withLen (cap n : Nat) : State := { State.powerOn ⟨cap⟩ with len := BitVec.ofNat 16 n }

/-- The same with the operand register IP_OPT set. -/
def withOpt (s : State) (b : Byte) : State := s.setOperands { s.operands with ipOpt := b }

/-- A block whose OUT holds the datagram of R140's example. -/
def builtDatagram (cap : Nat) : State :=
  { State.powerOn ⟨cap⟩ with outBuf := cellsFrom 0 [0x08, 0x00, 0xF7, 0xFF, 0x00, 0x00, 0x00, 0x00], outLen := 8 }

/-- The datagram D0 and the packet of V-PK-1. -/
def d0 : List Byte := [0x08, 0x00, 0xF7, 0xFF, 0x00, 0x00, 0x00, 0x00]

def packet1 : List Byte :=
  [0x45, 0x00, 0x00, 0x1C, 0x00, 0x00, 0x00, 0x00, 0x40, 0x01, 0x7C, 0xDF,
   0x7F, 0x00, 0x00, 0x01, 0x7F, 0x00, 0x00, 0x01] ++ d0

/-- One field of the state that a command leaves. -/
def after {α : Type} (i : Instr) (s : State) (f : State → α) : Option α := (nextOf (exec i s)).map f

/-! ## Well-formedness refuses ill-formed terms -/

/-- R61: 18 bits of offset. -/
theorem test_offset_of_nineteen_bits_is_ill_formed :
    Transaction.wellFormed (.write32 (2 ^ 18) 0) = false ∧ Transaction.wellFormed (.read32 (2 ^ 18)) = false ∧
    Transaction.wellFormed (.write8 (2 ^ 18) 0) = false ∧ Transaction.wellFormed (.read8 (2 ^ 18)) = false ∧
    HostEvent.wellFormed (.bus (.read8 (2 ^ 18))) = false ∧ Transaction.wellFormed (.read8 (2 ^ 18 - 1)) = true := by decide

/-- R5: `28 <= CAP <= 65535`. -/
theorem test_capacity_out_of_bounds_is_ill_formed :
    Config.wellFormed ⟨27⟩ = false ∧ Config.wellFormed ⟨65536⟩ = false ∧
    Config.wellFormed ⟨28⟩ = true ∧ Config.wellFormed ⟨65535⟩ = true := by decide

/-! ## Command words, from the opcode map of 30_encoding.md R91 -/

theorem test_decode_checksum_words :
    decode 0b00000000000000000000000000000001 = .ok .csum ∧
    decode 0b00000000000000000000000000000010 = .ok .zcfIp ∧
    decode 0b00000000000000000000000000000011 = .ok .zcfIcmp := by decide

theorem test_decode_builder_words :
    decode 0b00000000000000000000000000000100 = .ok .blddg ∧
    decode 0b00000000000000000000000000000101 = .ok .bldpkt := by decide

theorem test_decode_unpack_and_buffer_words :
    decode 0b00000000000000000000000000000110 = .ok .decode ∧
    decode 0b00000000000000000000000000000111 = .ok .move := by decide

/-- R92, R93: by name. -/
theorem test_decode_rejects :
    decode 0x00000000 = .error .reservedOpcode ∧ decode 0x00000008 = .error .reservedOpcode ∧
    decode 0x000000FF = .error .reservedOpcode ∧ decode 0x00000101 = .error .reservedField ∧
    decode 0x80000006 = .error .reservedField := by decide

theorem test_table_words :
    decodeTableWord 32 0x1 = some .csum ∧ decodeTableWord 32 0x7 = some .move ∧ decodeTableWord 8 0x6 = some .decode ∧
    decodeTableWord 32 0x8 = none ∧ decodeTableWord 32 0x100000001 = none := by decide

/-- The host's placing of a word: the next step runs it. -/
theorem test_fetch_word_runs_csum_from_reset :
    (nextOf (step (State.reset.withFetchWord 32 1))).map (fun s => (s.csumRes, s.err, s.pending, s.responses)) =
      some (0xFFFF, 0, [], [.ok]) := by decide

/-! ## CSUM -/

/-- V-CS-6: an odd length. -/
theorem test_csum_odd : after .csum (loaded 2048 [0x12, 0x34, 0x56]) (fun s => (s.csumRes, s.err)) = some (0x97CB, 0) := by
  decide

/-- V-CS-10: two fold steps. -/
theorem test_csum_two_folds :
    after .csum (loaded 2048 [0xFF, 0xFF, 0xFF, 0xFF, 0x00, 0x01]) State.csumRes = some 0xFFFE := by decide

/-! ## ZCF.IP and ZCF.ICMP -/

/-- V-ZCF-3: the shortest accepted input. -/
theorem test_zcf_ip_shortest :
    after .zcfIp (loaded 2048 [0, 1, 2, 3, 4, 5, 6, 7, 8, 9, 0x0A, 0x0B]) (fun s => (s.output, s.outLen)) =
      some ([0, 1, 2, 3, 4, 5, 6, 7, 8, 9, 0, 0], 12) := by decide

/-- V-ZCF-4. -/
theorem test_zcf_ip_too_short :
    after .zcfIp (loaded 2048 [0, 1, 2, 3, 4, 5, 6, 7, 8, 9, 0x0A]) (fun s => (s.err, s.outLen)) = some (2, 0) := by decide

/-- V-ZCF-5. -/
theorem test_zcf_icmp_shortest :
    after .zcfIcmp (loaded 2048 [0xAA, 0xBB, 0xCC, 0xDD]) State.output = some [0xAA, 0xBB, 0, 0] := by decide

/-- V-ZCF-6. -/
theorem test_zcf_icmp_too_short : after .zcfIcmp (loaded 2048 [0xAA, 0xBB, 0xCC]) State.err = some 2 := by decide

/-! ## BLDDG -/

/-- V-DG-2. -/
theorem test_blddg :
    after .blddg ((loaded 2048 [0x61, 0x62, 0x63, 0x64]).setOperands
      { OperandRegs.reset with icmpId := 0x1234, icmpSeq := 0x0001 }) (fun s => (s.output, s.csumRes)) =
      some ([0x08, 0x00, 0x21, 0x04, 0x12, 0x34, 0x00, 0x01, 0x61, 0x62, 0x63, 0x64], 0x2104) := by decide

/-- V-DG-3: odd payload, negative sequence. -/
theorem test_blddg_odd :
    after .blddg ((loaded 2048 [0x61, 0x62, 0x63]).setOperands
      { OperandRegs.reset with icmpId := 0xBEEF, icmpSeq := 0xFFFF }) (fun s => (s.output, s.csumRes)) =
      some ([0x08, 0x00, 0x74, 0xAD, 0xBE, 0xEF, 0xFF, 0xFF, 0x61, 0x62, 0x63], 0x74AD) := by decide

/-! ## BLDPKT -/

/-- V-PK-2. -/
theorem test_bldpkt :
    after .bldpkt ((loaded 2048 [0x08, 0x00, 0x21, 0x04, 0x12, 0x34, 0x00, 0x01, 0x61, 0x62, 0x63, 0x64]).setOperands
      { OperandRegs.reset with ipId := 0xABCD, ipTtl := 128, ipSrc := 0xC0A80001, ipDst := 0x08080808 })
      (fun s => (s.output, s.csumRes)) =
      some ([0x45, 0x00, 0x00, 0x20, 0xAB, 0xCD, 0x00, 0x00, 0x80, 0x01, 0xBE, 0x56, 0xC0, 0xA8, 0x00, 0x01,
        0x08, 0x08, 0x08, 0x08, 0x08, 0x00, 0x21, 0x04, 0x12, 0x34, 0x00, 0x01, 0x61, 0x62, 0x63, 0x64], 0xBE56) := by
  decide

/-- V-PK-3: the options branch. -/
theorem test_bldpkt_options :
    after .bldpkt ((loaded 2048 d0).setOperands { OperandRegs.reset with ipId := 0x0001, ipOpt := 0x07 })
      (fun s => (s.output, s.csumRes)) =
      some ([0x46, 0x00, 0x00, 0x20, 0x00, 0x01, 0x00, 0x00, 0x40, 0x01, 0x74, 0xDA, 0x7F, 0x00, 0x00, 0x01,
        0x7F, 0x00, 0x00, 0x01, 0x07, 0x00, 0x00, 0x00] ++ d0, 0x74DA) := by decide

/-! ## DECODE -/

/-- V-DEC-8: an Echo Reply. -/
theorem test_decode_reply :
    after .decode (loaded 2048 [0x45, 0x00, 0x00, 0x20, 0x1C, 0x46, 0x00, 0x00, 0x75, 0x01, 0x58, 0xDE, 0x08, 0x08, 0x08,
      0x08, 0xC0, 0xA8, 0x00, 0x01, 0x00, 0x00, 0x29, 0x04, 0x12, 0x34, 0x00, 0x01, 0x61, 0x62, 0x63, 0x64]) State.dec =
      some ⟨4, 5, 0x0020, 0x1C46, 0x0000, 0x75, 0x01, 0x58DE, 0x08080808, 0xC0A80001, 0x00, 0x00, 0x2904, 0x1234, 0x0001⟩ := by
  decide

/-- V-DEC-4: version 6. -/
theorem test_decode_version_six :
    after .decode (loaded 2048 (packet1.set 0 0x65)) (fun s => (s.err, s.dec)) = some (4, DecodeRegs.reset) := by decide

/-! ## MOVE -/

/-- V-MV-2: LEN above CAP does not matter, and `IN[8]` stays. -/
theorem test_move :
    after .move { builtDatagram 2048 with len := 2049, inBuf := [(8, 0xEE)] } (fun s => (s.input, s.len, s.err, s.inByte 8)) =
      some (d0, 8, 0, 0xEE) := by decide

/-! ## The bus -/

/-- R22: the masking example of the BLDDG vectors. -/
theorem test_register_write_is_masked :
    (nextOf (performAll [wr .icmpId 0x12345678, rd .icmpId, wr .icmpSeq 0xFFFFFFFF, rd .icmpSeq] State.reset)).map
      State.responses = some [.ok, .okWord 0x00005678, .ok, .okWord 0x0000FFFF] := by decide

/-- R63: registers of one width next to each other are told apart, read-write ones and decode results (V-DEC-8). -/
theorem test_register_reads_are_told_apart :
    (nextOf (performAll [setaddr .ipSrc 192 168 0 1, rd .ipSrc, rd .ipDst, cmd .decode, rd .decSrc, rd .decDst, rd .decIcmpId]
      (loaded 2048 [0x45, 0x00, 0x00, 0x20, 0x1C, 0x46, 0x00, 0x00, 0x75, 0x01, 0x58, 0xDE, 0x08, 0x08, 0x08,
        0x08, 0xC0, 0xA8, 0x00, 0x01, 0x00, 0x00, 0x29, 0x04, 0x12, 0x34, 0x00, 0x01]))).map State.responses =
      some [.ok, .okWord 0xC0A80001, .okWord 0x7F000001, .ok, .okWord 0x08080808, .okWord 0xC0A80001, .okWord 0x1234] := by
  decide

/-- R220: a reset that the host gives as its next event, by a step. -/
theorem test_step_performs_a_pending_reset :
    (nextOf (step (((withLen 28 5).setErr 2).setPending [.reset, cmd .move]))).map
      (fun s => (s.len, s.err, s.pending, s.responses)) = some (0, 0, [cmd .move], []) := by decide

/-- R67: each of the four cases, with STATUS.ERR kept. -/
theorem test_bus_errors :
    (nextOf (performAll [.bus (.read32 0x034), .bus (.read8 0x004), .bus (.write32 0x10000 0), .bus (.read32 0x006)]
      ((withLen 28 0).setErr 2))).map (fun s => (s.responses, s.err)) =
      some ([.busError, .busError, .busError, .busError], 2) := by decide

/-! ## Witnesses: the checksum arithmetic -/

theorem test_meets_WordSumFoldAndChecksumFollowTheRule : 0xFFFF ≤ 0xFFFF ∧ 0xFFFF < 0x10000 := by decide

theorem test_meets_FoldHasTheClosedForm : 0 < 1 ∧ 65535 < 65536 ∧ 0 < 1 * 65536 + 65535 := by decide

theorem test_meets_TwoFoldStepsSuffice : 2 ^ 32 - 1 < 2 ^ 32 ∧ (List.replicate 65535 (0xFF : Byte)).length ≤ 65535 :=
  ⟨by decide, le_of_eq List.length_replicate⟩

theorem test_meets_OnesComplementAdditionIsOrderFree :
    0xFFFF ≤ 0xFFFF ∧ (∀ x ∈ [0xFFFF, 1], x ≤ 0xFFFF) ∧ List.Perm [1, 2, 3] [3, 1, 2] := by decide

/-- An even and an odd length. -/
theorem test_meets_RoundTripValidityLaw :
    (∃ bs : List Byte, bs.length = 6 ∧ 2 + 2 ≤ bs.length ∧ bs[2]? = some 0 ∧ bs[2 + 1]? = some 0) ∧
    (∃ bs : List Byte, bs.length = 5 ∧ 2 + 2 ≤ bs.length ∧ bs[2]? = some 0 ∧ bs[2 + 1]? = some 0) ∧ 2 % 2 = 0 :=
  ⟨⟨[8, 0, 0, 0, 1, 2], by decide⟩, ⟨[8, 0, 0, 0, 1], by decide⟩, rfl⟩

theorem test_meets_ZeroPaddingKeepsTheChecksum : [(0x12 : Byte)].length % 2 = 1 ∧ ([] : List Byte).length % 2 = 0 := by decide

/-! ## Witnesses: command words and steps -/

theorem test_meets_DecodeUndoesEncode : ∀ i : Instr, i.wellFormed = true := by intro i; cases i <;> rfl

/-- The first and the last word of each range. -/
theorem test_meets_EveryWordIsACommandOrIllegal :
    (0x00000100 : Word).toNat / 256 ≠ 0 ∧ (0xFFFFFFFF : Word).toNat / 256 ≠ 0 ∧
    ((0 : Word).toNat / 256 = 0 ∧ (0 : Word).toNat % 256 = 0) ∧
    ((8 : Word).toNat / 256 = 0 ∧ 8 ≤ (8 : Word).toNat % 256) ∧ ((0xFF : Word).toNat / 256 = 0 ∧ 8 ≤ (0xFF : Word).toNat % 256) ∧
    ((1 : Word).toNat / 256 = 0 ∧ 1 ≤ (1 : Word).toNat % 256 ∧ (1 : Word).toNat % 256 ≤ 7) ∧
    ((7 : Word).toNat / 256 = 0 ∧ 1 ≤ (7 : Word).toNat % 256 ∧ (7 : Word).toNat % 256 ≤ 7) := by decide

theorem test_meets_StepRunsTheDecodedCommand :
    (State.reset.setPending [.bus (.write32 0x000 4)]).pending = .bus (.write32 0x000 4) :: [] ∧ decode 4 = .ok .blddg := by
  decide

theorem test_meets_StepAbortsOnAnIllegalWord :
    (State.reset.setPending [.bus (.write32 0x000 0x101), .reset]).pending = .bus (.write32 0x000 0x101) :: [.reset] ∧
    decode 0x101 = .error .reservedField := by decide

theorem test_meets_FetchWordRunsNext : decode 7 = .ok .move := by decide

theorem test_meets_EachTransactionGetsOneResponse :
    (State.reset.setPending [.bus (.read8 0x10000), .reset]).pending = .bus (.read8 0x10000) :: [.reset] ∧
    (State.reset.setPending [.reset, cmd .move]).pending = .reset :: [cmd .move] ∧ State.reset.pending = [] := by decide

theorem test_meets_ResetGivesTheTabledValues :
    (((withLen 28 5).setErr 2).setPending [.reset, cmd .move]).pending = .reset :: [cmd .move] := by decide

theorem test_meets_CommandsFromReset : Config.Legal ⟨28⟩ ∧ Config.standard.Legal ∧ Config.Legal ⟨65535⟩ := by decide

/-! ## Witnesses: the commands. CAP is 28, the smallest, unless said otherwise -/

theorem test_meets_CsumComputesTheChecksum :
    (withLen 28 28).len.toNat ≤ (withLen 28 28).cfg.cap ∧ (withLen 28 29).cfg.cap < (withLen 28 29).len.toNat ∧
    8 ≤ (loaded 28 [8, 0, 0, 0, 0, 0, 0, 0]).cfg.cap ∧
    (loaded 28 [8, 0, 0, 0, 0, 0, 0, 0]).input = [0x08, 0x00, 0x00, 0x00, 0x00, 0x00, 0x00, 0x00] := by decide

theorem test_meets_CsumCornerCases :
    (withLen 28 0).len = 0 ∧ (withLen 28 0).len.toNat ≤ (withLen 28 0).cfg.cap ∧
    (loaded 28 [1]).len = 1 ∧ (loaded 28 [1]).inByte 0 = 0x01 ∧ (loaded 28 [0xFF]).len = 1 ∧ (loaded 28 [0xFF]).inByte 0 = 0xFF ∧
    (loaded 28 [0x12, 0x34, 0x56]).len.toNat % 2 = 1 ∧ (∀ k, k < (loaded 28 [0, 0]).len.toNat → (loaded 28 [0, 0]).inByte k = 0) ∧
    (loaded 28 [0xFF, 0xFF]).input = [0xFF, 0xFF] ∧ (loaded 28 [0xFF, 0xFF, 0, 1]).input = [0xFF, 0xFF, 0x00, 0x01] := by decide

/-- Clause (c) of the corner cases: another state with the same input and another byte after it. -/
theorem test_meets_CsumCornerCases_same_input :
    ∃ u v : State, u ≠ loaded 28 [1] ∧ u.cfg = (loaded 28 [1]).cfg ∧ u.len = (loaded 28 [1]).len ∧
      (∀ k, k < (loaded 28 [1]).len.toNat → u.inByte k = (loaded 28 [1]).inByte k) ∧ exec .csum u = .next v :=
  ⟨(loaded 28 [1]).setInByte 1 0xFF, _, by decide, rfl, rfl, by decide, rfl⟩

theorem test_meets_ZcfIpZeroesTheHeaderField :
    (withLen 28 29).cfg.cap < (withLen 28 29).len.toNat ∧ (withLen 28 11).len.toNat < 12 ∧
    (12 ≤ (withLen 28 12).len.toNat ∧ (withLen 28 12).len.toNat ≤ (withLen 28 12).cfg.cap) ∧
    (12 ≤ (withLen 28 28).len.toNat ∧ (withLen 28 28).len.toNat ≤ (withLen 28 28).cfg.cap) ∧
    ((loaded 28 (List.replicate 12 0)).inByte 10 = 0 ∧ (loaded 28 (List.replicate 12 0)).inByte 11 = 0) ∧
    (loaded 28 (packet1.take 20)).input = [0x45, 0x00, 0x00, 0x1C, 0x00, 0x00, 0x00, 0x00, 0x40, 0x01, 0x7C, 0xDF,
      0x7F, 0x00, 0x00, 0x01, 0x7F, 0x00, 0x00, 0x01] := by decide

theorem test_meets_ZcfIcmpZeroesTheMessageField :
    (withLen 28 29).cfg.cap < (withLen 28 29).len.toNat ∧ (withLen 28 3).len.toNat < 4 ∧
    (4 ≤ (withLen 28 4).len.toNat ∧ (withLen 28 4).len.toNat ≤ (withLen 28 4).cfg.cap) ∧
    (4 ≤ (withLen 28 28).len.toNat ∧ (withLen 28 28).len.toNat ≤ (withLen 28 28).cfg.cap) ∧
    (loaded 28 d0).input = [0x08, 0x00, 0xF7, 0xFF, 0x00, 0x00, 0x00, 0x00] := by decide

theorem test_meets_BlddgBuildsTheEchoRequest :
    (withLen 28 0).cfg.Legal ∧ (withLen 28 29).cfg.cap < (withLen 28 29).len.toNat ∧
    ((withLen 28 28).len.toNat ≤ (withLen 28 28).cfg.cap ∧ (withLen 28 28).cfg.cap < 8 + (withLen 28 28).len.toNat) ∧
    ((withLen 28 21).len.toNat ≤ (withLen 28 21).cfg.cap ∧ (withLen 28 21).cfg.cap < 8 + (withLen 28 21).len.toNat) ∧
    8 + (withLen 28 20).len.toNat ≤ (withLen 28 20).cfg.cap ∧
    ((withLen 28 0).len = 0 ∧ (withLen 28 0).operands.icmpId = 0 ∧ (withLen 28 0).operands.icmpSeq = 0 ∧
      8 + (withLen 28 0).len.toNat ≤ (withLen 28 0).cfg.cap) := by decide

theorem test_meets_BlddgOutputInvariants :
    (withLen 28 20).cfg.Legal ∧ ∃ t, exec .blddg (withLen 28 20) = .next t ∧ t.err = 0 := ⟨by decide, _, rfl, rfl⟩

theorem test_meets_BlddgEqualsTheSequenceByHand :
    (withLen 28 20).cfg.Legal ∧ 8 + (withLen 28 20).len.toNat ≤ (withLen 28 20).cfg.cap ∧
    8 + (loaded 2048 [0x61]).len.toNat ≤ (loaded 2048 [0x61]).cfg.cap := by decide

/-- Both branches of IP_OPT, at the edges of the two checks. -/
theorem test_meets_BldpktBuildsThePacket :
    (withLen 28 0).cfg.Legal ∧ (withLen 28 29).cfg.cap < (withLen 28 29).len.toNat ∧
    (20 = (if (withLen 28 9).operands.ipOpt = 0 then 20 else 24) ∧ (withLen 28 9).len.toNat ≤ (withLen 28 9).cfg.cap ∧
      (withLen 28 9).cfg.cap < 20 + (withLen 28 9).len.toNat) ∧
    20 + (withLen 28 8).len.toNat ≤ (withLen 28 8).cfg.cap ∧
    (24 = (if (withOpt (withLen 28 5) 1).operands.ipOpt = 0 then 20 else 24) ∧ (withOpt (withLen 28 5) 1).operands.ipOpt ≠ 0 ∧
      (withLen 28 5).cfg.cap < 24 + (withLen 28 5).len.toNat) ∧
    24 + (withOpt (withLen 28 4) 0xFF).len.toNat ≤ (withOpt (withLen 28 4) 0xFF).cfg.cap ∧
    ((loaded 28 d0).operands = OperandRegs.reset ∧ (loaded 28 d0).input = [0x08, 0x00, 0xF7, 0xFF, 0x00, 0x00, 0x00, 0x00] ∧
      20 + (loaded 28 d0).len.toNat ≤ (loaded 28 d0).cfg.cap) := by decide

/-- The first and the last length of each step of the estimate, and the longest datagram. -/
theorem test_meets_FragmentFieldIsTheLegacyEstimate :
    (withLen 65535 0).cfg.Legal ∧ 20 = (if (withLen 65535 0).operands.ipOpt = 0 then 20 else 24) ∧
    (withLen 65535 1415).len.toNat < 1416 ∧
    (1416 ≤ (withLen 65535 1416).len.toNat ∧ (withLen 65535 2831).len.toNat < 2832) ∧
    (2832 ≤ (withLen 65535 2832).len.toNat ∧ (withLen 65535 4247).len.toNat < 4248) ∧
    20 + (withLen 65535 65515).len.toNat ≤ (withLen 65535 65515).cfg.cap ∧
    ((withLen 2048 2028).cfg.cap = 2048 ∧ 20 + (withLen 2048 2028).len.toNat ≤ 2048) := by decide

theorem test_meets_HeaderChecksumCoversTheHeaderOnly :
    (loaded 28 d0).cfg.Legal ∧ 20 = (if (loaded 28 d0).operands.ipOpt = 0 then 20 else 24) ∧
    20 + (loaded 28 d0).len.toNat ≤ (loaded 28 d0).cfg.cap ∧
    ∃ u v : State, u ≠ loaded 28 d0 ∧ u.cfg = (loaded 28 d0).cfg ∧ u.len = (loaded 28 d0).len ∧
      u.operands = (loaded 28 d0).operands ∧ exec .bldpkt u = .next v :=
  ⟨by decide, by decide, by decide, loaded 28 (d0.set 7 0x55), _, by decide, rfl, rfl, rfl, rfl⟩

theorem test_meets_BldpktOutputInvariants :
    (∃ t, exec .bldpkt (withLen 28 8) = .next t ∧ t.err = 0) ∧
    (∃ t, exec .bldpkt (withOpt (withLen 28 4) 7) = .next t ∧ t.err = 0) ∧ (withLen 28 8).cfg.Legal ∧
    20 = (if (withLen 28 8).operands.ipOpt = 0 then 20 else 24) ∧
    24 = (if (withOpt (withLen 28 4) 7).operands.ipOpt = 0 then 20 else 24) ∧
    ((withLen 28 8).operands = OperandRegs.reset ∧ (withLen 28 8).len = 8) :=
  ⟨⟨_, rfl, rfl⟩, ⟨_, rfl, rfl⟩, by decide, by decide, by decide, by decide⟩

theorem test_meets_DecodeUnpacksTheHeaders :
    (withLen 28 29).cfg.cap < (withLen 28 29).len.toNat ∧
    ((withLen 28 27).len.toNat ≤ (withLen 28 27).cfg.cap ∧ (withLen 28 27).len.toNat < 28) ∧
    (28 ≤ (loaded 28 (packet1.set 0 0x65)).len.toNat ∧ ((loaded 28 (packet1.set 0 0x65)).inByte 0).toNat / 16 ≠ 4) ∧
    (28 ≤ (loaded 28 packet1).len.toNat ∧ (loaded 28 packet1).len.toNat ≤ (loaded 28 packet1).cfg.cap ∧
      ((loaded 28 packet1).inByte 0).toNat / 16 = 4) ∧
    (28 ≤ (loaded 28 packet1).cfg.cap ∧ (loaded 28 packet1).input = packet1) := by decide

theorem test_meets_DecodeTakesTheMessageAtByteTwenty :
    (∃ t, exec .decode (loaded 28 packet1) = .next t ∧ t.err = 0) ∧ (withOpt (withLen 28 4) 7).cfg.Legal ∧
    (withOpt (withLen 28 4) 7).operands.ipOpt ≠ 0 ∧ 4 ≤ (withOpt (withLen 28 4) 7).len.toNat ∧
    24 + (withOpt (withLen 28 4) 7).len.toNat ≤ (withOpt (withLen 28 4) 7).cfg.cap :=
  ⟨⟨_, rfl, by decide⟩, by decide⟩

theorem test_meets_DecodeRecoversWhatTheBuildersPacked :
    (withLen 28 0).cfg.Legal ∧ (withLen 28 0).operands.ipOpt = 0 ∧
    (20 + (withLen 28 7).len.toNat ≤ (withLen 28 7).cfg.cap ∧ (withLen 28 7).len.toNat < 8) ∧
    (20 + (withLen 28 8).len.toNat ≤ (withLen 28 8).cfg.cap ∧ 8 ≤ (withLen 28 8).len.toNat) ∧
    28 + (withLen 28 0).len.toNat ≤ (withLen 28 0).cfg.cap ∧ 28 + (loaded 29 [0x61]).len.toNat ≤ (loaded 29 [0x61]).cfg.cap := by
  decide

theorem test_meets_WhatTheBuildersBuildVerifies :
    (withLen 28 20).cfg.Legal ∧ 8 + (withLen 28 20).len.toNat ≤ (withLen 28 20).cfg.cap ∧
    (20 = (if (withLen 28 8).operands.ipOpt = 0 then 20 else 24) ∧ 20 + (withLen 28 8).len.toNat ≤ (withLen 28 8).cfg.cap) ∧
    (24 = (if (withOpt (withLen 28 4) 1).operands.ipOpt = 0 then 20 else 24) ∧
      24 + (withOpt (withLen 28 4) 1).len.toNat ≤ (withOpt (withLen 28 4) 1).cfg.cap) := by decide

theorem test_meets_MoveCopiesOutToIn :
    (withLen 28 5).outLen = 0 ∧ (builtDatagram 28).output = [0x08, 0x00, 0xF7, 0xFF, 0x00, 0x00, 0x00, 0x00] ∧
    7 < (builtDatagram 28).outLen.toNat ∧ (builtDatagram 28).outLen.toNat ≤ 8 := by decide

/-- A state that meets the invariant with bytes in OUT. -/
theorem test_meets_MoveEqualsTheCopyByTheHost : (builtDatagram 28).Inv where
  legal := by decide
  inWf := by decide
  outWf := by decide
  inWithin := by decide
  outWithin := by decide
  outLenFits := by decide
  outputWritten := by decide
  errLegal := by decide
  decLegal := by decide

/-! ## Witnesses: errors -/

theorem test_meets_BadLengthExactlyWhen : 65535 ≤ (withLen 65535 65535).cfg.cap := by decide

/-- The cap check, the commands' own checks, and an illegal word. -/
theorem test_meets_AbortsArePrecise :
    (∃ t, exec .csum (withLen 28 29) = .next t ∧ t.err ≠ 0) ∧ (∃ t, exec .zcfIp (withLen 28 11) = .next t ∧ t.err ≠ 0) ∧
    (∃ t, exec .zcfIcmp (withLen 28 3) = .next t ∧ t.err ≠ 0) ∧ (∃ t, exec .blddg (withLen 28 21) = .next t ∧ t.err ≠ 0) ∧
    (∃ t, exec .bldpkt (withLen 28 9) = .next t ∧ t.err ≠ 0) ∧ (∃ t, exec .decode (withLen 28 27) = .next t ∧ t.err ≠ 0) ∧
    decode 0 = .error .reservedOpcode :=
  ⟨⟨_, rfl, by decide⟩, ⟨_, rfl, by decide⟩, ⟨_, rfl, by decide⟩, ⟨_, rfl, by decide⟩, ⟨_, rfl, by decide⟩,
    ⟨_, rfl, by decide⟩, rfl⟩

theorem test_meets_TheFirstErrorIsReported :
    decode 0xFF = .error .reservedOpcode ∧ Instr.decode ≠ .move ∧ (withLen 28 29).cfg.Legal ∧
    (withLen 28 29).cfg.cap < (withLen 28 29).len.toNat ∧
    (withLen 28 11).len.toNat ≤ (withLen 28 11).cfg.cap ∧ (withLen 28 11).len.toNat < 12 ∧ (withLen 28 3).len.toNat < 4 ∧
    (withLen 28 28).len.toNat ≤ (withLen 28 28).cfg.cap ∧ (withLen 28 28).cfg.cap < 8 + (withLen 28 28).len.toNat ∧
    (withLen 28 28).cfg.cap < (if (withLen 28 28).operands.ipOpt = 0 then 20 else 24) + (withLen 28 28).len.toNat ∧
    (withLen 28 27).len.toNat < 28 ∧ ((loaded 28 (packet1.set 0 0x05)).inByte 0).toNat / 16 ≠ 4 := by decide

theorem test_meets_OnlyCommandsWriteErr :
    (∃ t, runCommandWord 0 State.reset = .next t) ∧ (∀ w, Transaction.read32 0x004 ≠ .write32 0x000 w) ∧
    (∃ t, transact (.read32 0x004) State.reset = .next t) := by
  refine ⟨⟨_, rfl⟩, ?_, ⟨_, rfl⟩⟩
  intro w h; cases h

/-! ## Witnesses: what each command reads and writes -/

/-- For every command: two different states that give it the same operands, with a command that completes in each. -/
theorem test_meets_ResultsDependOnNamedStateOnly :
    ∀ i : Instr, ∃ s t s' t' : State, s ≠ t ∧ Sys2Proof.Spec.sameOperands i s t ∧
      exec i s = .next s' ∧ exec i t = .next t' ∧ s'.err = 0 := by
  intro i
  cases i
  · exact ⟨loaded 28 [1], (loaded 28 [1]).setErr 2, _, _, by decide, ⟨rfl, rfl, fun _ _ => rfl⟩, rfl, rfl, rfl⟩
  · exact ⟨loaded 28 packet1, (loaded 28 packet1).setErr 2, _, _, by decide, ⟨rfl, rfl, fun _ _ => rfl⟩, rfl, rfl, rfl⟩
  · exact ⟨loaded 28 d0, (loaded 28 d0).setErr 2, _, _, by decide, ⟨rfl, rfl, fun _ _ => rfl⟩, rfl, rfl, rfl⟩
  · exact ⟨loaded 28 [1], (loaded 28 [1]).setErr 2, _, _, by decide, ⟨rfl, rfl, fun _ _ => rfl, rfl, rfl⟩, rfl, rfl, rfl⟩
  · exact ⟨loaded 28 d0, (loaded 28 d0).setErr 2, _, _, by decide,
      ⟨rfl, rfl, fun _ _ => rfl, rfl, rfl, rfl, rfl, rfl, rfl⟩, rfl, rfl, rfl⟩
  · exact ⟨loaded 28 packet1, (loaded 28 packet1).setErr 2, _, _, by decide, ⟨rfl, rfl, fun _ _ _ => rfl⟩, rfl, rfl,
      by decide⟩
  · exact ⟨builtDatagram 28, (builtDatagram 28).setErr 2, _, _, by decide, ⟨rfl, rfl, fun _ _ => rfl⟩, rfl, rfl, rfl⟩

theorem test_meets_EachPieceOfStateHasItsWriters : ∀ i : Instr, ∃ t, exec i (loaded 28 packet1) = .next t := by
  intro i; cases i <;> exact ⟨_, rfl⟩

theorem test_meets_CsumAndDecodeFrame :
    ∃ t u, exec .csum (loaded 28 packet1) = .next t ∧ exec .decode (loaded 28 packet1) = .next u ∧ u.dec ≠ DecodeRegs.reset :=
  ⟨_, _, rfl, rfl, by decide⟩

/-- Each of the four commands, completing, and one abort. -/
theorem test_meets_OutputCommandsFrame :
    (∃ t, exec .zcfIp (loaded 28 packet1) = .next t ∧ t.err = 0) ∧ (∃ t, exec .zcfIcmp (loaded 28 d0) = .next t ∧ t.err = 0) ∧
    (∃ t, exec .blddg (loaded 28 d0) = .next t ∧ t.err = 0) ∧ (∃ t, exec .bldpkt (loaded 28 d0) = .next t ∧ t.err = 0) ∧
    (∃ t, exec .bldpkt (loaded 28 packet1) = .next t ∧ t.err ≠ 0) :=
  ⟨⟨_, rfl, rfl⟩, ⟨_, rfl, rfl⟩, ⟨_, rfl, rfl⟩, ⟨_, rfl, rfl⟩, ⟨_, rfl, by decide⟩⟩

theorem test_meets_MoveFrame : ∃ t, exec .move (builtDatagram 28) = .next t ∧ 8 ≤ (builtDatagram 28).outLen.toNat :=
  ⟨_, rfl, by decide⟩

/-! ## Witnesses: the bus -/

/-- A row of each access right, and offsets of the register region that no row has. -/
theorem test_meets_RegisterMapIsTheTable :
    (∃ row ∈ Sys2Proof.Spec.registerTable, row.access = .readOnly) ∧
    (∃ row ∈ Sys2Proof.Spec.registerTable, row.access = .readWrite) ∧
    (∃ row ∈ Sys2Proof.Spec.registerTable, row.access = .writeOnly) ∧
    (0x034 ≤ 0x7F ∧ ¬ ∃ row ∈ Sys2Proof.Spec.registerTable, row.offset = 0x034) ∧
    (0x07C ≤ 0x7F ∧ ¬ ∃ row ∈ Sys2Proof.Spec.registerTable, row.offset = 0x07C) ∧
    (0x07F ≤ 0x7F ∧ ¬ ∃ row ∈ Sys2Proof.Spec.registerTable, row.offset = 0x07F) := by decide

theorem test_meets_HostWritesAreNarrowed :
    ∃ row ∈ Sys2Proof.Spec.registerTable, row.reg = .ipOpt ∧ row.access = .readWrite := by decide

/-- The first and the last mapped index, and the first and the last unmapped one. -/
theorem test_meets_InWindowIsTheInputBuffer :
    (withLen 28 0).cfg.Legal ∧ 0 < (withLen 28 0).cfg.cap ∧ 27 < (withLen 28 0).cfg.cap ∧
    ((withLen 28 0).cfg.cap ≤ 28 ∧ 28 ≤ 0xFFFF) ∧ ((withLen 28 0).cfg.cap ≤ 0xFFFF ∧ 0xFFFF ≤ 0xFFFF) ∧
    ((withLen 65535 0).cfg.Legal ∧ 65534 < (withLen 65535 0).cfg.cap ∧ (withLen 65535 0).cfg.cap ≤ 65535 ∧ 65535 ≤ 0xFFFF) := by
  decide

theorem test_meets_OutWindowIsTheOutputBuffer :
    (builtDatagram 28).cfg.Legal ∧ 0 < (builtDatagram 28).cfg.cap ∧ 27 < (builtDatagram 28).cfg.cap ∧
    ((builtDatagram 28).cfg.cap ≤ 28 ∧ 28 ≤ 0xFFFF) ∧ ((builtDatagram 28).cfg.cap ≤ 0xFFFF ∧ 0xFFFF ≤ 0xFFFF) := by decide

theorem test_meets_ReadsAndForbiddenWritesChangeNothing :
    (∃ row ∈ Sys2Proof.Spec.registerTable, row.reg = .status ∧ row.access = .readOnly) ∧
    (builtDatagram 28).cfg.Legal ∧ 27 < (builtDatagram 28).cfg.cap := by decide

/-- A transaction that gets BusError and one that does not. -/
theorem test_meets_BusErrorExactlyWhen :
    State.reset.cfg.Legal ∧
    (∃ t, transact (.read8 0x10800) State.reset = .next t ∧ t.responses = State.reset.responses ++ [.busError]) ∧
    (∃ t, transact (.read32 0x008) State.reset = .next t ∧ t.responses = State.reset.responses ++ [.okWord 0]) :=
  ⟨by decide, ⟨_, rfl, by decide⟩, ⟨_, rfl, by decide⟩⟩

theorem test_meets_TransactionsAreIdempotent :
    (∀ w, Transaction.write32 0x008 5 ≠ .write32 0x000 w) ∧ (∃ t, transact (.write32 0x008 5) State.reset = .next t) ∧
    (∀ w, Transaction.write8 0x10000 5 ≠ .write32 0x000 w) ∧ (∃ t, transact (.write8 0x10000 5) State.reset = .next t) := by
  refine ⟨fun w h => ?_, ⟨_, rfl⟩, fun w h => ?_, ⟨_, rfl⟩⟩
  · injection h with h1; exact absurd h1 (by decide)
  · cases h

/-- Two transactions in between, for a byte of IN and for LEN. -/
theorem test_meets_ReadsReturnTheLatestWrite :
    State.reset.cfg.Legal ∧ 2047 < State.reset.cfg.cap ∧
    (∀ tr ∈ [Transaction.write8 0x10000 1, .read8 0x20000], (∀ w, tr ≠ .write32 0x000 w) ∧
      (∀ x, tr ≠ .write8 (0x10000 + 2047) x) ∧ (∀ x, tr ≠ .write32 0x008 x)) ∧
    (∃ t, performAll (wb 2047 7 :: [Transaction.write8 0x10000 1, .read8 0x20000].map .bus) State.reset = .next t) ∧
    (∃ t, performAll (wr .len 7 :: [Transaction.write8 0x10000 1, .read8 0x20000].map .bus) State.reset = .next t) := by
  refine ⟨by decide, by decide, ?_, ⟨_, rfl⟩, ⟨_, rfl⟩⟩
  intro tr h
  simp only [List.mem_cons, List.not_mem_nil, or_false] at h
  rcases h with rfl | rfl
  · refine ⟨fun w h => ?_, fun x h => ?_, fun x h => ?_⟩
    · cases h
    · injection h with h1; exact absurd h1 (by decide)
    · cases h
  · refine ⟨fun w h => ?_, fun x h => ?_, fun x h => ?_⟩ <;> cases h

/-- A full IN. -/
theorem test_meets_LdinLoadsTheInput :
    (withLen 28 0).cfg.Legal ∧ packet1.length ≤ (withLen 28 0).cfg.cap ∧ packet1.length = 28 := by decide

/-! ## Witnesses: invariants -/

/-- A state that meets the invariant, and its step: a MOVE. -/
theorem test_meets_EveryStepKeepsTheInvariant :
    ((builtDatagram 28).setPending [cmd .move]).Inv ∧ ∃ t, step ((builtDatagram 28).setPending [cmd .move]) = .next t :=
  ⟨⟨by decide, by decide, by decide, by decide, by decide, by decide, by decide, by decide, by decide⟩, _, rfl⟩

theorem test_meets_PowerOnMeetsTheInvariant : Config.Legal ⟨28⟩ ∧ Config.Legal ⟨65535⟩ := by decide

theorem test_meets_ReachableStatesMeetTheInvariant : Reachable ((State.powerOn ⟨28⟩).setPending [cmd .blddg, .reset, cmd .move]) :=
  .start ⟨28⟩ _ (by decide)

end Sys2Proof.Tests
end

/-! The checksum arithmetic and the power-on state against 00_scope.md R10 and R5. -/

namespace Sys2Proof.Machine

/-! ## The word sum, word by word -/

/-- The `k`-th 16-bit word of R10: big-endian, the low byte zero where the buffer has ended. -/
def wordAt (bs : List Byte) (k : Nat) : Nat :=
  (bs.getD (2 * k) 0).toNat * 256 + (if 2 * k + 1 < bs.length then (bs.getD (2 * k + 1) 0).toNat else 0)

theorem wordAt_singleton_zero (a : Byte) : wordAt [a] 0 = a.toNat * 256 := by simp [wordAt]

theorem wordAt_pair_zero (a b : Byte) (bs : List Byte) : wordAt (a :: b :: bs) 0 = a.toNat * 256 + b.toNat := by
  simp [wordAt]

theorem wordAt_pair_succ (a b : Byte) (bs : List Byte) (k : Nat) : wordAt (a :: b :: bs) (k + 1) = wordAt bs k := by
  have index : 2 * (k + 1) = 2 * k + 2 := by omega
  simp [wordAt, index, Nat.succ_le_iff]

theorem wsum_eq_sum_wordAt (bs : List Byte) :
    wsum bs = ((List.range ((bs.length + 1) / 2)).map (wordAt bs)).sum := by
  induction bs using byte_pairs_induction with
  | h0 => rfl
  | h1 a => simp [wordAt_singleton_zero]
  | h2 a b bs ih =>
    have words : ((a :: b :: bs).length + 1) / 2 = (bs.length + 1) / 2 + 1 := by
      simp only [List.length_cons]; omega
    have tail : wordAt (a :: b :: bs) ∘ Nat.succ = wordAt bs := funext (wordAt_pair_succ a b bs)
    rw [words, List.range_succ_eq_map, List.map_cons, List.map_map, tail, List.sum_cons, wordAt_pair_zero, ← ih,
      wsum_pair]

/-! ## The fold, one round at a time -/

/-- The loop of R10: a round that happens leaves the fold as it is. Remainder by 65535 and positivity fix a fold, and a round
changes neither, so the fuel does not have to be followed. -/
theorem fold_foldStep (s : Nat) (h : 0xFFFF < s) : fold (foldStep s) = fold s := by
  have positive : 0 < s := by omega
  have same_mod : fold (foldStep s) % 65535 = s % 65535 := (fold_mod _).trans (foldStep_mod s)
  have both_positive : 0 < fold (foldStep s) ↔ 0 < s :=
    iff_of_true (fold_pos _ (foldStep_pos s positive)) positive
  exact (fold_eq_of_mod s _ (fold_le _) same_mod both_positive).symm

/-! ## The invariant at power-on -/

theorem State.Inv.setPending {s : State} (h : s.Inv) (es : List HostEvent) : (s.setPending es).Inv where
  legal := h.legal
  inWf := h.inWf
  outWf := h.outWf
  inWithin := h.inWithin
  outWithin := h.outWithin
  outLenFits := h.outLenFits
  outputWritten := h.outputWritten
  errLegal := h.errLegal
  decLegal := h.decLegal

/-- Both buffers are empty and OUT_LEN is 0, so only the bounds of CAP are asked for. -/
theorem State.powerOn_inv (c : Config) (h : c.Legal) : (State.powerOn c).Inv where
  legal := h
  inWf := List.Pairwise.nil
  outWf := List.Pairwise.nil
  inWithin := by simp
  outWithin := by simp
  outLenFits := Nat.zero_le _
  outputWritten := by simp
  errLegal := by simp
  decLegal := .inl rfl

/-- Settles O1, from the word-by-word form of `wsum`, the loop law of `fold` and the laws of the checksum arithmetic. -/
theorem wordSumFoldAndChecksumFollowTheRule : Obligations.WordSumFoldAndChecksumFollowTheRule :=
  ⟨wsum_eq_sum_wordAt, wsum_nil, fold_small, fun s h => (fold_foldStep s h).symm, fold_le, cksum_toNat⟩

/-- Settles O57: power-on meets the invariant, which does not speak of the host's events. -/
theorem powerOnMeetsTheInvariant : Obligations.PowerOnMeetsTheInvariant :=
  ⟨State.powerOn_inv Config.standard (by decide), fun c es h => (State.powerOn_inv c h).setPending es⟩

end Sys2Proof.Machine

/-! What a command, a transaction and a step do to the state, said once for all seven commands, and the statements of
10_state.md that follow from it. -/

namespace Sys2Proof.Machine

/-! ## How a command ends: the error it raises, or what it delivers -/

/-- The error that `i` raises in `s`, if any, in the order of the checks of 60_exceptions.md R199. -/
def abortKind (i : Instr) (s : State) : Option ErrKind :=
  if i ≠ .move ∧ s.cfg.cap < s.len.toNat then some .badLength
  else match i with
    | .csum | .move => none
    | .zcfIp => if s.len.toNat < 12 then some .badLength else none
    | .zcfIcmp => if s.len.toNat < 4 then some .badLength else none
    | .blddg => if s.cfg.cap < 8 + s.len.toNat then some .overflow else none
    | .bldpkt => if s.cfg.cap < headerLen s.operands.ipOpt + s.len.toNat then some .overflow else none
    | .decode => if s.len.toNat < 28 ∨ versionNibble (s.inByte 0) ≠ 4 then some .malformedReply else none

/-- The sequence `t` with its checksum stored at bytes `a`, `a + 1`. -/
def withChecksum (a : Nat) (t : List Byte) : List Byte := splice t a (bytes2 (cksum t))

/-- The Echo Request of BLDDG, its checksum field zero (41_datagram.md R140). -/
def State.request (s : State) : List Byte := echoRequest s.operands.icmpId s.operands.icmpSeq s.input

/-- The IPv4 header of BLDPKT, its checksum field zero (42_packet.md R150). -/
def State.header (s : State) : List Byte := ipHeader s.operands s.len.toNat

/-- What `i` leaves of `s` when no check fails, ERR still as it was. -/
def delivered (i : Instr) (s : State) : State :=
  match i with
  | .csum => s.setCsumRes (cksum s.input)
  | .zcfIp => s.putOutput (splice s.input 10 [0x00, 0x00])
  | .zcfIcmp => s.putOutput (splice s.input 2 [0x00, 0x00])
  | .blddg => (s.putOutput (withChecksum 2 s.request)).setCsumRes (cksum s.request)
  | .bldpkt => (s.putOutput (withChecksum 10 s.header ++ s.input)).setCsumRes (cksum s.header)
  | .decode => s.setDec (unpack s.inByte)
  | .move => (s.fillInput s.output).setLen s.outLen

/-- A check that raises `k` when `p` holds and otherwise goes on to the checks `rest`. -/
theorem elim_check {α : Type} (p : Prop) [Decidable p] (k : ErrKind) (rest : Option ErrKind) (a : α) (f : ErrKind → α) :
    (if p then some k else rest).elim a f = if p then f k else rest.elim a f := by
  split <;> rfl

/-- Every command raises its error, which replaces ERR alone, or delivers its result and clears ERR. -/
theorem exec_eq (i : Instr) (s : State) :
    exec i s = .next ((abortKind i s).elim ((delivered i s).setErr 0) (fun k => s.setErr k.code)) := by
  unfold abortKind
  cases i
  case move => exact execMove_eq s
  all_goals simp only [elim_check, ne_eq, reduceCtorEq, not_false_eq_true, true_and]
  case csum => exact execCsum_eq s
  case zcfIp => exact zeroChecksumField_eq 10 s
  case zcfIcmp => exact zeroChecksumField_eq 2 s
  case blddg => exact execBlddg_eq s
  case bldpkt => exact execBldpkt_eq s
  case decode => rw [ite_or]; exact execDecode_eq s

/-- The inversion of `exec`: an abort, or a completion. -/
theorem exec_cases {i : Instr} {s t : State} (h : exec i s = .next t) :
    (∃ k, abortKind i s = some k ∧ t = s.setErr k.code) ∨ (abortKind i s = none ∧ t = (delivered i s).setErr 0) := by
  rw [exec_eq] at h
  cases hk : abortKind i s with
  | none => rw [hk] at h; cases h; exact .inr ⟨rfl, rfl⟩
  | some k => rw [hk] at h; cases h; exact .inl ⟨k, rfl, rfl⟩

theorem ErrKind.code_cases (k : ErrKind) : k.code = 1 ∨ k.code = 2 ∨ k.code = 3 ∨ k.code = 4 := by
  cases k <;> decide

theorem ErrKind.code_ne_zero (k : ErrKind) : k.code ≠ 0 := by cases k <;> decide

/-! ## ERR (10_state.md R32) -/

theorem exec_err {i : Instr} {s t : State} (h : exec i s = .next t) :
    t.err = 0 ∨ t.err = 1 ∨ t.err = 2 ∨ t.err = 3 ∨ t.err = 4 := by
  obtain ⟨k, -, rfl⟩ | ⟨-, rfl⟩ := exec_cases h
  · exact .inr k.code_cases
  · exact .inl rfl

/-- An illegal word raises IllegalCommand; every other word is a command. -/
theorem runCommandWord_err {w : Word} {s t : State} (h : runCommandWord w s = .next t) :
    t.err = 0 ∨ t.err = 1 ∨ t.err = 2 ∨ t.err = 3 ∨ t.err = 4 := by
  rcases hw : decode w with e | i
  · rw [runCommandWord_error w e s hw] at h
    cases h
    exact .inr (.inl rfl)
  · rw [runCommandWord_ok w i s hw] at h
    exact exec_err h

theorem transact_keeps_err {tr : Transaction} {s t : State} (hc : ∀ w, tr ≠ .write32 0x000 w)
    (h : transact tr s = .next t) : t.err = s.err := by
  obtain ⟨r, ht⟩ | ⟨r, v, -, -, ht⟩ | ⟨i, b, -, -, -, ht⟩ := transact_cases tr s hc <;> rw [ht] at h <;> cases h
  · rfl
  · exact State.writeReg_err s r v
  · rfl

/-- Settles O41, from the inversion of a command word and of the transactions that start no command. -/
theorem onlyCommandsWriteErr : Obligations.OnlyCommandsWriteErr :=
  ⟨fun _ _ _ => runCommandWord_err, fun _ _ _ => transact_keeps_err, fun s => widen_toNat s.err (by decide)⟩

/-! ## Who writes what (45_absent_classes.md R188) -/

theorem delivered_writers (i : Instr) (s : State) :
    (i ≠ .move → (delivered i s).inBuf = s.inBuf ∧ (delivered i s).len = s.len) ∧
    (i = .csum ∨ i = .decode ∨ i = .move →
      (delivered i s).outBuf = s.outBuf ∧ (delivered i s).outLen = s.outLen) ∧
    (i = .zcfIp ∨ i = .zcfIcmp ∨ i = .decode ∨ i = .move → (delivered i s).csumRes = s.csumRes) ∧
    (i ≠ .decode → (delivered i s).dec = s.dec) := by
  cases i <;> simp [delivered]

/-- Settles O43: the frame of every command is `exec_next`, and an abort writes none of the rest. -/
theorem eachPieceOfStateHasItsWriters : Obligations.EachPieceOfStateHasItsWriters := by
  intro i s t h
  obtain ⟨u, hu, hcfg, hoperands, hpending, hresponses, hresets⟩ := exec_next i s
  obtain rfl : u = t := by rw [h] at hu; cases hu; rfl
  refine ⟨hcfg, hoperands, hpending, hresponses, hresets, ?_⟩
  obtain ⟨k, -, rfl⟩ | ⟨-, rfl⟩ := exec_cases h
  · simp
  · exact delivered_writers i s

/-! ## What a result depends on -/

theorem State.input_congr {s t : State} (hl : s.len = t.len)
    (hb : ∀ k, k < s.len.toNat → s.inByte k = t.inByte k) : s.input = t.input := by
  unfold State.input State.inBytes
  rw [← hl]
  exact List.map_congr_left fun k hk => hb k (List.mem_range.1 hk)

theorem State.output_congr {s t : State} (hl : s.outLen = t.outLen)
    (hb : ∀ k, k < s.outLen.toNat → s.outByte k = t.outByte k) : s.output = t.output := by
  unfold State.output State.outBytes
  rw [← hl]
  exact List.map_congr_left fun k hk => hb k (List.mem_range.1 hk)

/-- `OUT[0..OUT_LEN)` after a delivery is the beginning of what was delivered, so it does not depend on what OUT held. -/
theorem State.putOutput_output (s : State) (bs : List Byte) :
    (s.putOutput bs).output = bs.take (BitVec.ofNat 16 bs.length).toNat := by
  have fits : (BitVec.ofNat 16 bs.length).toNat ≤ bs.length := by
    rw [BitVec.toNat_ofNat]; exact Nat.mod_le _ _
  refine List.ext_getElem (by simpa using fits) fun i h1 h2 => ?_
  have hi : i < bs.length := by rw [List.length_take] at h2; omega
  simp [State.output, State.outBytes, State.putOutput_outByte, hi]

/-- MOVE leaves as input what was the output. -/
theorem State.move_input (s : State) : ((s.fillInput s.output).setLen s.outLen).input = s.output := by
  have h := State.fillInput_inBytes s s.output
  rw [State.output_length] at h
  exact h

/-- DECODE reads the first 28 bytes only. -/
theorem unpack_congr {f g : Nat → Byte} (h : ∀ k, k < 28 → f k = g k) : unpack f = unpack g := by
  simp [unpack, memRead2, memRead4, h]

theorem ipHeader_congr {o p : OperandRegs} (hid : o.ipId = p.ipId) (httl : o.ipTtl = p.ipTtl) (hproto : o.ipProto = p.ipProto)
    (hsrc : o.ipSrc = p.ipSrc) (hdst : o.ipDst = p.ipDst) (hopt : o.ipOpt = p.ipOpt) (n : Nat) :
    ipHeader o n = ipHeader p n := by
  simp only [ipHeader, hid, httl, hproto, hsrc, hdst, hopt]

/-- Equal operands raise equal errors. -/
theorem abortKind_congr {i : Instr} {s t : State} (h : Spec.sameOperands i s t) : abortKind i s = abortKind i t := by
  obtain ⟨hcfg, h⟩ := h
  unfold abortKind
  cases i with
  | csum | zcfIp | zcfIcmp | blddg => simp only [hcfg, h.1]
  | bldpkt =>
    obtain ⟨hlen, -, -, -, -, -, -, hopt⟩ := h
    simp only [hcfg, hlen, hopt]
  | decode =>
    obtain ⟨hlen, hbytes⟩ := h
    rw [hlen] at hbytes
    have check : (t.len.toNat < 28 ∨ versionNibble (s.inByte 0) ≠ 4) ↔
        (t.len.toNat < 28 ∨ versionNibble (t.inByte 0) ≠ 4) := by
      refine or_congr_right' fun hshort => ?_
      rw [hbytes 0 (by decide) (by omega)]
    simp only [hcfg, hlen, check]
  | move => rfl

theorem abortKind_decode_none {s : State} (h : abortKind .decode s = none) :
    ¬ (s.len.toNat < 28 ∨ versionNibble (s.inByte 0) ≠ 4) := by
  intro check
  unfold abortKind at h
  split_ifs at h

/-- Equal operands deliver equal results. -/
theorem delivered_congr {i : Instr} {s t : State} (h : Spec.sameOperands i s t) (hk : abortKind i s = none) :
    Spec.sameResults i (delivered i s) (delivered i t) := by
  obtain ⟨-, h⟩ := h
  cases i with
  | csum => exact congrArg cksum (State.input_congr h.1 h.2)
  | zcfIp | zcfIcmp =>
    have input := State.input_congr h.1 h.2
    simp [Spec.sameResults, delivered, State.putOutput_output, input]
  | blddg =>
    obtain ⟨hlen, hbytes, hid, hseq⟩ := h
    have request : s.request = t.request := by
      rw [State.request, State.request, hid, hseq, State.input_congr hlen hbytes]
    simp [Spec.sameResults, delivered, State.putOutput_output, request]
  | bldpkt =>
    obtain ⟨hlen, hbytes, hid, httl, hproto, hsrc, hdst, hopt⟩ := h
    have input := State.input_congr hlen hbytes
    have header : s.header = t.header := by
      rw [State.header, State.header, hlen, ipHeader_congr hid httl hproto hsrc hdst hopt]
    simp [Spec.sameResults, delivered, State.putOutput_output, input, header]
  | decode =>
    obtain ⟨-, hbytes⟩ := h
    have long := abortKind_decode_none hk
    exact unpack_congr fun k hk28 => hbytes k hk28 (by omega)
  | move =>
    refine ⟨h.1, ?_⟩
    calc (delivered .move s).input = s.output := State.move_input s
      _ = t.output := State.output_congr h.1 h.2
      _ = (delivered .move t).input := (State.move_input t).symm

/-- ERR is no result: both ends of a completion differ from what was delivered in ERR alone. -/
theorem sameResults_setErr {i : Instr} {s t : State} (e : BitVec 4) (h : Spec.sameResults i s t) :
    Spec.sameResults i (s.setErr e) (t.setErr e) := by
  cases i <;> exact h

/-- Settles O42: equal operands raise the same error or none, and then deliver the same. -/
theorem resultsDependOnNamedStateOnly : Obligations.ResultsDependOnNamedStateOnly := by
  intro i s t s' t' h hs ht
  have same := abortKind_congr h
  obtain ⟨k, hk, rfl⟩ | ⟨hk, rfl⟩ := exec_cases hs <;> obtain ⟨k', hk', rfl⟩ | ⟨hk', rfl⟩ := exec_cases ht
  · obtain rfl : k = k' := by simpa [hk, hk'] using same
    exact ⟨rfl, fun hzero => absurd hzero k.code_ne_zero⟩
  · simp [hk, hk'] at same
  · simp [hk, hk'] at same
  · exact ⟨rfl, fun _ => sameResults_setErr 0 (delivered_congr h hk)⟩

/-! ## The invariant, operation by operation -/

theorem Memory.fill_within {bs : List Byte} {m : Memory} {cap : Nat} (hbs : bs.length ≤ cap) (hm : ∀ c ∈ m, c.1 < cap) :
    ∀ c ∈ Memory.fill bs m, c.1 < cap := fun c hc =>
  (Memory.mem_fill bs m c hc).elim (fun h => Nat.lt_of_lt_of_le h hbs) (hm c)

theorem Memory.write_within {m : Memory} {i cap : Nat} (b : Byte) (hi : i < cap) (hm : ∀ c ∈ m, c.1 < cap) :
    ∀ c ∈ Memory.write m i b, c.1 < cap := by
  intro c hc
  obtain rfl | h := Memory.mem_write m i b c hc
  · exact hi
  · exact hm c h

theorem State.Inv.setErr {s : State} (h : s.Inv) {e : BitVec 4} (he : e.toNat ≤ 4) : (s.setErr e).Inv :=
  { h with errLegal := he }

theorem State.Inv.setCsumRes {s : State} (h : s.Inv) (c : Half) : (s.setCsumRes c).Inv := { h with }

theorem State.Inv.setLen {s : State} (h : s.Inv) (v : Half) : (s.setLen v).Inv := { h with }

theorem State.Inv.respond {s : State} (h : s.Inv) (r : Response) : (s.respond r).Inv := { h with }

theorem State.Inv.setDec {s : State} (h : s.Inv) {d : DecodeRegs} (hd : d.ver = 4) : (s.setDec d).Inv :=
  { h with decLegal := .inr hd }

theorem State.Inv.setInByte {s : State} (h : s.Inv) {i : Nat} (b : Byte) (hi : i < s.cfg.cap) : (s.setInByte i b).Inv :=
  { h with
    inWf := Memory.write_wf s.inBuf i b h.inWf
    inWithin := Memory.write_within b hi h.inWithin }

theorem State.Inv.fillInput {s : State} (h : s.Inv) {bs : List Byte} (hbs : bs.length ≤ s.cfg.cap) : (s.fillInput bs).Inv :=
  { h with
    inWf := Memory.fill_wf bs s.inBuf h.inWf
    inWithin := Memory.fill_within hbs h.inWithin }

/-- OUT_LEN is the length of what was delivered, because CAP is legal and so the length has 16 bits. -/
theorem State.putOutput_outLen_toNat {s : State} {bs : List Byte} (hcap : s.cfg.Legal) (hbs : bs.length ≤ s.cfg.cap) :
    (s.putOutput bs).outLen.toNat = bs.length := by
  obtain ⟨-, hmax⟩ := hcap
  exact Nat.mod_eq_of_lt (by omega)

theorem State.Inv.putOutput {s : State} (h : s.Inv) {bs : List Byte} (hbs : bs.length ≤ s.cfg.cap) : (s.putOutput bs).Inv :=
  have outLen := State.putOutput_outLen_toNat h.legal hbs
  { h with
    outWf := Memory.fill_wf bs s.outBuf h.outWf
    outWithin := Memory.fill_within hbs h.outWithin
    outLenFits := outLen ▸ hbs
    outputWritten := fun i hi => by
      rw [outLen] at hi
      rw [State.putOutput_outBuf, Memory.read_fill, if_pos hi]
      simpa using hi }

theorem State.Inv.writeReg {s : State} (h : s.Inv) (r : Reg) (v : Word) : (s.writeReg r v).Inv := by
  rw [State.writeReg_frame]
  exact { h with }

/-- A reset leaves what power-on leaves, but for the host's side and the count of resets. -/
theorem State.Inv.applyReset {s : State} (h : s.Inv) : s.applyReset.Inv := { State.powerOn_inv s.cfg h.legal with }

/-! ## The invariant, command by command -/

theorem withChecksum_length {a : Nat} {t : List Byte} (h : a + 2 ≤ t.length) :
    (withChecksum a t).length = t.length := splice_bytes2_length t a _ h

theorem State.request_length (s : State) : s.request.length = 8 + s.len.toNat := by
  rw [State.request, echoRequest_length, State.input_length]

theorem State.header_length (s : State) : s.header.length = headerLen s.operands.ipOpt := ipHeader_length _ _

theorem headerLen_ge (opt : Byte) : 20 ≤ headerLen opt := by rw [headerLen_eq]; split <;> decide

theorem State.datagram_length (s : State) : (withChecksum 2 s.request).length = 8 + s.len.toNat := by
  have := s.request_length
  rw [withChecksum_length (by omega), this]

theorem State.packet_length (s : State) :
    (withChecksum 10 s.header ++ s.input).length = headerLen s.operands.ipOpt + s.len.toNat := by
  have := headerLen_ge s.operands.ipOpt
  have := s.header_length
  rw [List.length_append, withChecksum_length (by omega), State.input_length, this]

/-- Where a check does not hold, what raises no error is the checks after it. -/
theorem check_eq_none {p : Prop} [Decidable p] {k : ErrKind} {rest : Option ErrKind} :
    (if p then some k else rest) = none ↔ ¬ p ∧ rest = none := by
  split <;> simp [*]

/-- A completed command delivers at most CAP bytes, all of them written, and a version 4 header if it is DECODE. -/
theorem State.Inv.delivered {i : Instr} {s : State} (h : s.Inv) (hk : abortKind i s = none) : (delivered i s).Inv := by
  unfold abortKind at hk
  cases i with
  | csum => exact h.setCsumRes _
  | zcfIp | zcfIcmp =>
    simp only [check_eq_none, ne_eq, reduceCtorEq, not_false_eq_true, true_and, and_true, not_lt] at hk
    obtain ⟨hfits, hlong⟩ := hk
    refine h.putOutput ?_
    rw [splice_length _ _ _ (by simpa using hlong), State.input_length]
    exact hfits
  | blddg =>
    simp only [check_eq_none, and_true, not_lt] at hk
    exact (h.putOutput (s.datagram_length ▸ hk.2)).setCsumRes _
  | bldpkt =>
    simp only [check_eq_none, and_true, not_lt] at hk
    exact (h.putOutput (s.packet_length ▸ hk.2)).setCsumRes _
  | decode =>
    simp only [check_eq_none, and_true, not_or, not_not] at hk
    obtain ⟨-, -, hversion⟩ := hk
    exact h.setDec hversion
  | move => exact (h.fillInput (s.output_length ▸ h.outLenFits)).setLen _

theorem ErrKind.code_le_four (k : ErrKind) : k.code.toNat ≤ 4 := by cases k <;> decide

theorem exec_inv {i : Instr} {s t : State} (h : s.Inv) (ht : exec i s = .next t) : t.Inv := by
  obtain ⟨k, -, rfl⟩ | ⟨hk, rfl⟩ := exec_cases ht
  · exact h.setErr k.code_le_four
  · exact (h.delivered hk).setErr (by decide)

/-! ## The invariant, event by event -/

theorem runCommandWord_inv {w : Word} {s t : State} (h : s.Inv) (ht : runCommandWord w s = .next t) : t.Inv := by
  rcases hw : decode w with e | i
  · rw [runCommandWord_error w e s hw] at ht
    cases ht
    exact h.setErr (by decide)
  · rw [runCommandWord_ok w i s hw] at ht
    exact exec_inv h ht

/-- A transaction writes to CMD, or it is one of the transactions that start no command. -/
theorem transact_inv {tr : Transaction} {s t : State} (h : s.Inv) (ht : transact tr s = .next t) : t.Inv := by
  by_cases hc : ∃ w, tr = .write32 0x000 w
  · obtain ⟨w, rfl⟩ := hc
    obtain ⟨u, hu, -⟩ := runCommandWord_next w s
    rw [transact, hostWrite32_cmd, hu] at ht
    cases ht
    exact (runCommandWord_inv h hu).respond .ok
  · obtain ⟨r, hr⟩ | ⟨r, v, -, -, hr⟩ | ⟨i, b, -, hi, -, hr⟩ := transact_cases tr s (not_exists.1 hc) <;>
      rw [hr] at ht <;> cases ht
    · exact h.respond r
    · exact (h.writeReg r v).respond .ok
    · exact (h.setInByte b hi).respond .ok

theorem perform_inv {e : HostEvent} {s t : State} (h : s.Inv) (ht : perform e s = .next t) : t.Inv := by
  cases e with
  | bus tr => exact transact_inv h ht
  | reset => cases ht; exact h.applyReset

theorem step_nil {s : State} (h : s.pending = []) : step s = .next s := by
  rw [step, nextEvent, h]

theorem step_cons {s : State} {e : HostEvent} {es : List HostEvent} (h : s.pending = e :: es) :
    step s = perform e (s.setPending es) := nextEvent_cons s e es h

/-- Settles O56, by the event the step takes. -/
theorem everyStepKeepsTheInvariant : Obligations.EveryStepKeepsTheInvariant := by
  intro s t h ht
  cases hp : s.pending with
  | nil => rw [step_nil hp] at ht; cases ht; exact h
  | cons e es => rw [step_cons hp] at ht; exact perform_inv (h.setPending es) ht

/-! ## Reachable states -/

theorem transact_next (tr : Transaction) (s : State) : ∃ t, transact tr s = .next t := by
  by_cases hc : ∃ w, tr = .write32 0x000 w
  · obtain ⟨w, rfl⟩ := hc
    obtain ⟨u, hu, -⟩ := runCommandWord_next w s
    exact ⟨u.respond .ok, by rw [transact, hostWrite32_cmd, hu, andThen_next]⟩
  · obtain ⟨r, hr⟩ | ⟨r, v, -, -, hr⟩ | ⟨i, b, -, -, -, hr⟩ := transact_cases tr s (not_exists.1 hc) <;> exact ⟨_, hr⟩

theorem perform_next (e : HostEvent) (s : State) : ∃ t, perform e s = .next t := by
  cases e with
  | bus tr => exact transact_next tr s
  | reset => exact ⟨s.applyReset, rfl⟩

theorem step_next (s : State) : ∃ t, step s = .next t := by
  cases hp : s.pending with
  | nil => exact ⟨s, step_nil hp⟩
  | cons e es => rw [step_cons hp]; exact perform_next e _

theorem Reachable.inv {s : State} (h : Reachable s) : s.Inv := by
  induction h with
  | start c es hc => exact (State.powerOn_inv c hc).setPending es
  | step s t _ ht ih => exact everyStepKeepsTheInvariant s t ih ht

/-- Settles O58: the invariant by induction on the run, the next state because every step answers. -/
theorem reachableStatesMeetTheInvariant : Obligations.ReachableStatesMeetTheInvariant := by
  intro s h
  obtain ⟨t, ht⟩ := step_next s
  exact ⟨h.inv, t, ht, .step s t h ht⟩

/-! ## A step that starts a command (10_state.md R31, 20_memory.md R68) -/

/-- Settles O11: the step takes the event off the list, and the bus answers OK after the command. -/
theorem stepRunsTheDecodedCommand : Obligations.StepRunsTheDecodedCommand := by
  intro s w i rest hp hw
  calc step s = hostWrite32 0x000 w (s.setPending rest) := step_cons hp
    _ = andThen (runCommandWord w (s.setPending rest)) (fun t => t.respond .ok) := hostWrite32_cmd w _
    _ = andThen (exec i (s.setPending rest)) (fun t => t.respond .ok) := by rw [runCommandWord_ok w i _ hw]

theorem State.withFetchWord_pending (s : State) (w : Word) :
    (s.withFetchWord 32 w.toNat).pending = .bus (.write32 0x000 w) :: s.pending := by
  have word : BitVec.ofNat 32 (w.toNat % 2 ^ 32) = w := by
    rw [Nat.mod_eq_of_lt w.isLt, BitVec.ofNat_toNat, BitVec.setWidth_eq]
  rw [State.withFetchWord, word]
  rfl

/-- Settles O13: taking the placed event off the list gives back the state it was placed in. -/
theorem fetchWordRunsNext : Obligations.FetchWordRunsNext := fun s w i =>
  stepRunsTheDecodedCommand (s.withFetchWord 32 w.toNat) w i s.pending (s.withFetchWord_pending w)

/-! ## What the host reads and writes of a register (10_state.md R22) -/

/-- A read returns what the register holds, with zeros above. -/
theorem State.readReg_toNat (s : State) (r : Reg) : (s.readReg r).toNat = Spec.held s r := by
  cases r
  case cmd | ipSrc | ipDst | decSrc | decDst => rfl
  all_goals exact widen_toNat _ (by decide)

theorem State.readReg_eq {s : State} {r : Reg} {n : Nat} (h : Spec.held s r = n) : s.readReg r = BitVec.ofNat 32 n := by
  rw [← h, ← State.readReg_toNat, BitVec.ofNat_toNat, BitVec.setWidth_eq]

/-- The bits column of 20_memory.md R63. -/
def Reg.width : Reg → Nat
  | .cmd => 0
  | .status | .decVer | .decIhl => 4
  | .ipTtl | .ipProto | .ipOpt | .decTtl | .decProto | .decType | .decCode => 8
  | .len | .outLen | .csumRes | .icmpId | .icmpSeq | .ipId
  | .decTotLen | .decIpId | .decFrag | .decHcsum | .decIcsum | .decIcmpId | .decIcmpSeq => 16
  | .ipSrc | .ipDst | .decSrc | .decDst => 32

/-- Every row of the spec's table says of its register what the model says. -/
theorem registerTable_row : ∀ row ∈ Spec.registerTable,
    row.offset = Reg.offset row.reg ∧ row.bits = Reg.width row.reg ∧ row.access = Reg.access row.reg := by
  decide

section
variable (s : State) (r : Reg) (v : Word)

theorem State.writeReg_len : (s.writeReg r v).len = if r = .len then narrow 16 v else s.len := by
  cases r <;> rfl

theorem State.writeReg_icmpId :
    (s.writeReg r v).operands.icmpId = if r = .icmpId then narrow 16 v else s.operands.icmpId := by cases r <;> rfl

theorem State.writeReg_icmpSeq :
    (s.writeReg r v).operands.icmpSeq = if r = .icmpSeq then narrow 16 v else s.operands.icmpSeq := by cases r <;> rfl

theorem State.writeReg_ipId :
    (s.writeReg r v).operands.ipId = if r = .ipId then narrow 16 v else s.operands.ipId := by cases r <;> rfl

theorem State.writeReg_ipTtl :
    (s.writeReg r v).operands.ipTtl = if r = .ipTtl then narrow 8 v else s.operands.ipTtl := by cases r <;> rfl

theorem State.writeReg_ipProto :
    (s.writeReg r v).operands.ipProto = if r = .ipProto then narrow 8 v else s.operands.ipProto := by cases r <;> rfl

theorem State.writeReg_ipSrc :
    (s.writeReg r v).operands.ipSrc = if r = .ipSrc then v else s.operands.ipSrc := by cases r <;> rfl

theorem State.writeReg_ipDst :
    (s.writeReg r v).operands.ipDst = if r = .ipDst then v else s.operands.ipDst := by cases r <;> rfl

theorem State.writeReg_ipOpt :
    (s.writeReg r v).operands.ipOpt = if r = .ipOpt then narrow 8 v else s.operands.ipOpt := by cases r <;> rfl

/-- A register write changes what no other register holds. -/
theorem State.held_writeReg_other {q : Reg} (h : q ≠ r) : Spec.held (s.writeReg r v) q = Spec.held s q := by
  have hr : r ≠ q := h.symm
  cases q <;> simp [Spec.held, State.writeReg_len, State.writeReg_icmpId, State.writeReg_icmpSeq, State.writeReg_ipId,
    State.writeReg_ipTtl, State.writeReg_ipProto, State.writeReg_ipSrc, State.writeReg_ipDst, State.writeReg_ipOpt, hr]

/-- A writable register keeps the low bits of its width. -/
theorem State.held_writeReg_same (h : Reg.access r = .readWrite) :
    Spec.held (s.writeReg r v) r = v.toNat % 2 ^ Reg.width r := by
  cases r <;> cases h
  case ipSrc | ipDst => exact (Nat.mod_eq_of_lt v.isLt).symm
  all_goals exact narrow_toNat _ v

/-- A register write changes LEN and the operand registers at most, and the bus adds its response. -/
theorem State.respond_writeReg_frame (ρ : Response) :
    (s.writeReg r v).respond ρ = { s with
      len := (s.writeReg r v).len, operands := (s.writeReg r v).operands, responses := s.responses ++ [ρ] } :=
  congrArg (fun t : State => t.respond ρ) (s.writeReg_frame r v)

end

/-- Settles O48: a row of R63 is the model's register, and the write of that register is the transaction. -/
theorem hostWritesAreNarrowed : Obligations.HostWritesAreNarrowed := by
  intro row hrow hrw s v
  obtain ⟨hoffset, hbits, haccess⟩ := registerTable_row row hrow
  have hwritable : Reg.access row.reg = .readWrite := haccess.symm.trans hrw
  have hcmd : row.reg ≠ .cmd := fun h => by rw [h] at hwritable; cases hwritable
  have same := s.held_writeReg_same row.reg v hwritable
  have other : ∀ r, r ≠ row.reg → Spec.held (s.writeReg row.reg v) r = Spec.held s r :=
    fun r h => s.held_writeReg_other row.reg v h
  have reads : ∀ r, r ≠ row.reg → (s.writeReg row.reg v).readReg r = s.readReg r := fun r h => by
    rw [State.readReg_eq (other r h), State.readReg_eq rfl]
  rw [hoffset, hbits]
  exact ⟨_, hostWrite32_reg row.reg v s hcmd, same, State.readReg_eq same, other, reads,
    s.writeReg_inByte row.reg v, s.writeReg_outByte row.reg v, s.respond_writeReg_frame row.reg v .ok⟩

end Sys2Proof.Machine

/-! What a transaction that starts no command answers and leaves, when it gets BusError, and the statements of 20_memory.md
that follow from it. -/

namespace Sys2Proof.Machine

/-! ## The address map against the spec's tables (20_memory.md R61 to R67) -/

theorem registerTable_covers (r : Reg) : ∃ row ∈ Spec.registerTable, row.reg = r := by cases r <;> decide

theorem isRegister_iff (a : Nat) : Spec.isRegister a ↔ ∃ r, a = Reg.offset r := by
  constructor
  · rintro ⟨row, hrow, rfl⟩
    exact ⟨row.reg, (registerTable_row row hrow).1⟩
  · rintro ⟨r, rfl⟩
    obtain ⟨row, hrow, rfl⟩ := registerTable_covers r
    exact ⟨row, hrow, (registerTable_row row hrow).1⟩

theorem Reg.offset_aligned (r : Reg) : Reg.offset r % 4 = 0 := by cases r <;> rfl

theorem isRegister_lt {a : Nat} (h : Spec.isRegister a) : a < 0x80 := by
  obtain ⟨r, rfl⟩ := (isRegister_iff a).1 h
  exact Reg.offset_lt r

theorem isRegister_aligned {a : Nat} (h : Spec.isRegister a) : a % 4 = 0 := by
  obtain ⟨r, rfl⟩ := (isRegister_iff a).1 h
  exact Reg.offset_aligned r

theorem isBufferByte_ge {cap a : Nat} (h : Spec.isBufferByte cap a) : 0x10000 ≤ a := by
  unfold Spec.isBufferByte at h; omega

theorem isBufferByte_inWindows {cap a : Nat} (hcap : cap ≤ 65535) (h : Spec.isBufferByte cap a) : Spec.inWindows a := by
  unfold Spec.isBufferByte at h; unfold Spec.inWindows; omega

theorem locate_register_iff (cap a : Nat) : (∃ r, locate cap a = .register r) ↔ Spec.isRegister a := by
  rw [isRegister_iff]
  constructor
  · rintro ⟨r, h⟩
    exact ⟨r, locate_eq_register cap a r h⟩
  · rintro ⟨r, rfl⟩
    exact ⟨r, locate_offset cap r⟩

theorem isBufferByte_of_locate {cap a i : Nat} (h : locate cap a = .inByte i ∨ locate cap a = .outByte i) :
    Spec.isBufferByte cap a := by
  have spec := locate_spec cap a
  unfold Spec.isBufferByte
  rcases h with h | h <;> rw [h] at spec <;> omega

/-- Every buffer byte is mapped, because CAP is legal and so a window is long enough for it. -/
theorem locate_of_isBufferByte {cap a : Nat} (hcap : cap ≤ 65535) (h : Spec.isBufferByte cap a) :
    ∃ i, locate cap a = .inByte i ∨ locate cap a = .outByte i := by
  obtain ⟨hlow, hhigh⟩ | ⟨hlow, hhigh⟩ := h <;> obtain ⟨i, rfl⟩ := Nat.exists_eq_add_of_le hlow
  · exact ⟨i, .inl (locate_in cap i (by omega) (by omega))⟩
  · exact ⟨i, .inr (locate_out cap i (by omega) (by omega))⟩

/-! ## What a transaction answers and what it writes -/

/-- The response to `tr` in `s`. -/
def answer (tr : Transaction) (s : State) : Response :=
  match tr with
  | .write32 a _ =>
    match locate s.cfg.cap a with
    | .register _ => .ok
    | _ => .busError
  | .read32 a =>
    match locate s.cfg.cap a with
    | .register r => .okWord (s.readReg r)
    | _ => .busError
  | .write8 a _ =>
    match locate s.cfg.cap a with
    | .inByte _ | .outByte _ => .ok
    | _ => .busError
  | .read8 a =>
    match locate s.cfg.cap a with
    | .inByte i => .okByte (s.inByte i)
    | .outByte i => .okByte (s.outByte i)
    | _ => .busError

/-- What `tr` leaves of `s` when it starts no command, the response not yet given. -/
def written (tr : Transaction) (s : State) : State :=
  match tr with
  | .write32 a v =>
    match locate s.cfg.cap a with
    | .register r => s.writeReg r v
    | _ => s
  | .write8 a b =>
    match locate s.cfg.cap a with
    | .inByte i => s.setInByte i b
    | _ => s
  | .read32 _ | .read8 _ => s

theorem transact_eq (tr : Transaction) (s : State) (h : ∀ w, tr ≠ .write32 0x000 w) :
    transact tr s = .next ((written tr s).respond (answer tr s)) := by
  cases tr with
  | write32 a v =>
    cases hl : locate s.cfg.cap a with
    | register r =>
      obtain rfl := locate_eq_register _ _ _ hl
      have hr : r ≠ .cmd := by rintro rfl; exact h v rfl
      simp only [transact, hostWrite32_reg r v s hr, written, answer, hl]
    | inByte | outByte | unmapped => simp only [transact, hostWrite32, written, answer, hl]
  | read32 a => simp only [transact, hostRead32, written, answer]; cases locate s.cfg.cap a <;> rfl
  | write8 a b => simp only [transact, hostWrite8, written, answer]; cases locate s.cfg.cap a <;> rfl
  | read8 a => simp only [transact, hostRead8, written, answer]; cases locate s.cfg.cap a <;> rfl

/-- A transaction that starts no command writes LEN, an operand register or a byte of IN at most. -/
theorem written_frame (tr : Transaction) (s : State) : written tr s = { s with
    len := (written tr s).len, operands := (written tr s).operands, inBuf := (written tr s).inBuf } := by
  cases tr with
  | write32 a v =>
    simp only [written]
    cases locate s.cfg.cap a with
    | register r => cases r <;> rfl
    | inByte | outByte | unmapped => rfl
  | write8 a b => simp only [written]; cases locate s.cfg.cap a <;> rfl
  | read32 | read8 => rfl

@[simp] theorem written_cfg (tr : Transaction) (s : State) : (written tr s).cfg = s.cfg := by
  rw [written_frame]

@[simp] theorem written_pending (tr : Transaction) (s : State) : (written tr s).pending = s.pending := by
  rw [written_frame]

@[simp] theorem written_responses (tr : Transaction) (s : State) : (written tr s).responses = s.responses := by
  rw [written_frame]

/-- Every transaction gives its one response, a write to CMD after the command has ended. -/
theorem transact_responds (tr : Transaction) (s : State) : ∃ u : State, transact tr s = .next (u.respond (answer tr s)) ∧
    u.cfg = s.cfg ∧ u.pending = s.pending ∧ u.responses = s.responses := by
  by_cases hc : ∃ w, tr = .write32 0x000 w
  · obtain ⟨w, rfl⟩ := hc
    obtain ⟨u, hu, hcfg, -, hpending, hresponses, -⟩ := runCommandWord_next w s
    have hanswer : answer (.write32 0x000 w) s = .ok := by simp only [answer, locate_cmd]
    refine ⟨u, ?_, hcfg, hpending, hresponses⟩
    rw [transact, hostWrite32_cmd, hu, andThen_next, hanswer]
  · exact ⟨written tr s, transact_eq tr s (not_exists.1 hc), written_cfg tr s, written_pending tr s,
      written_responses tr s⟩

/-- Settles O15: a pending event is taken off the list and performed, and a transaction gives its one response. -/
theorem eachTransactionGetsOneResponse : Obligations.EachTransactionGetsOneResponse := by
  refine ⟨fun s tr rest h => ⟨step_cons h, ?_⟩, fun s rest h => ⟨step_cons h, s.applyReset.setPending rest, ?_, rfl, rfl⟩,
    fun s => step_nil⟩
  · obtain ⟨u, hu, -, hpending, hresponses⟩ := transact_responds tr (s.setPending rest)
    refine ⟨_, answer tr (s.setPending rest), (step_cons h).trans hu, ?_, hpending⟩
    rw [State.respond_responses, hresponses, State.setPending_responses]
  · exact step_cons h

/-! ## BusError (20_memory.md R67) -/

/-- A 32-bit access is in order exactly at a register's offset: no other multiple of 4 is mapped outside the windows. -/
theorem badAccess_word_iff {cap : Nat} (hcap : cap ≤ 65535) (a : Nat) :
    Spec.badAccess cap (.read32 a) ↔ ¬ Spec.isRegister a := by
  refine ⟨?_, fun hreg => ?_⟩
  · rintro (hunmapped | ⟨hwindow, -⟩ | hodd) hreg
    · exact hunmapped (.inl hreg)
    · have := isRegister_lt hreg; omega
    · exact hodd (isRegister_aligned hreg)
  · by_cases hbyte : Spec.isBufferByte cap a
    · exact .inr (.inl (isBufferByte_inWindows hcap hbyte))
    · exact .inl (not_or.2 ⟨hreg, hbyte⟩)

/-- A byte access is in order exactly at a buffer byte. -/
theorem badAccess_byte_iff (cap a : Nat) : Spec.badAccess cap (.read8 a) ↔ ¬ Spec.isBufferByte cap a := by
  refine ⟨?_, fun hbyte => ?_⟩
  · rintro (hunmapped | hlow) hbyte
    · exact hunmapped (.inr hbyte)
    · have := isBufferByte_ge hbyte; omega
  · by_cases hreg : Spec.isRegister a
    · have := isRegister_lt hreg
      exact .inr (by omega)
    · exact .inl (not_or.2 ⟨hreg, hbyte⟩)

theorem answer_read32_busError (a : Nat) (s : State) : answer (.read32 a) s = .busError ↔ ¬ Spec.isRegister a := by
  rw [← locate_register_iff s.cfg.cap]
  simp only [answer]
  cases locate s.cfg.cap a <;> simp

theorem answer_write32_busError (a : Nat) (v : Word) (s : State) :
    answer (.write32 a v) s = .busError ↔ ¬ Spec.isRegister a := by
  rw [← locate_register_iff s.cfg.cap]
  simp only [answer]
  cases locate s.cfg.cap a <;> simp

theorem answer_read8_busError (a : Nat) (s : State) :
    answer (.read8 a) s = .busError ↔ ¬ ∃ i, locate s.cfg.cap a = .inByte i ∨ locate s.cfg.cap a = .outByte i := by
  simp only [answer]
  cases locate s.cfg.cap a <;> simp

theorem answer_write8_busError (a : Nat) (b : Byte) (s : State) :
    answer (.write8 a b) s = .busError ↔ ¬ ∃ i, locate s.cfg.cap a = .inByte i ∨ locate s.cfg.cap a = .outByte i := by
  simp only [answer]
  cases locate s.cfg.cap a <;> simp

theorem written_of_busError {tr : Transaction} {s : State} (h : answer tr s = .busError) : written tr s = s := by
  cases tr with
  | write32 a v =>
    simp only [answer, written] at h ⊢
    cases hl : locate s.cfg.cap a with
    | register r => rw [hl] at h; cases h
    | inByte | outByte | unmapped => rfl
  | write8 a b =>
    simp only [answer, written] at h ⊢
    cases hl : locate s.cfg.cap a with
    | inByte i => rw [hl] at h; cases h
    | register | outByte | unmapped => rfl
  | read32 | read8 => rfl

/-- A BusError changes nothing; a write to CMD never gets one. -/
theorem transact_of_busError {tr : Transaction} {s : State} (h : answer tr s = .busError) :
    transact tr s = .next (s.respond .busError) := by
  have hc : ∀ w, tr ≠ .write32 0x000 w := by
    rintro w rfl
    simp only [answer, locate_cmd, reduceCtorEq] at h
  rw [transact_eq tr s hc, h, written_of_busError h]

theorem transact_word_busError {a : Nat} (h : ¬ Spec.isRegister a) (v : Word) (s : State) :
    transact (.read32 a) s = .next (s.respond .busError) ∧ transact (.write32 a v) s = .next (s.respond .busError) :=
  ⟨transact_of_busError ((answer_read32_busError a s).2 h), transact_of_busError ((answer_write32_busError a v s).2 h)⟩

theorem transact_byte_busError {a : Nat} {s : State} (h : ¬ Spec.isBufferByte s.cfg.cap a) (b : Byte) :
    transact (.read8 a) s = .next (s.respond .busError) ∧ transact (.write8 a b) s = .next (s.respond .busError) := by
  have unmapped : ¬ ∃ i, locate s.cfg.cap a = .inByte i ∨ locate s.cfg.cap a = .outByte i :=
    fun ⟨_, hi⟩ => h (isBufferByte_of_locate hi)
  exact ⟨transact_of_busError ((answer_read8_busError a s).2 unmapped),
    transact_of_busError ((answer_write8_busError a b s).2 unmapped)⟩

theorem answer_busError_iff (tr : Transaction) {s : State} (hcap : s.cfg.cap ≤ 65535) :
    answer tr s = .busError ↔ Spec.badAccess s.cfg.cap tr := by
  have mapped (a : Nat) : (∃ i, locate s.cfg.cap a = .inByte i ∨ locate s.cfg.cap a = .outByte i) ↔
      Spec.isBufferByte s.cfg.cap a := ⟨fun ⟨_, hi⟩ => isBufferByte_of_locate hi, locate_of_isBufferByte hcap⟩
  cases tr with
  | read32 a => exact (answer_read32_busError a s).trans (badAccess_word_iff hcap a).symm
  | write32 a v => exact (answer_write32_busError a v s).trans (badAccess_word_iff hcap a).symm
  | read8 a => rw [answer_read8_busError, mapped]; exact (badAccess_byte_iff _ a).symm
  | write8 a b => rw [answer_write8_busError, mapped]; exact (badAccess_byte_iff _ a).symm

/-- Settles O52: the response is the answer, and a BusError answer changes nothing. -/
theorem busErrorExactlyWhen : Obligations.BusErrorExactlyWhen := by
  intro tr s t r ⟨_, hcap⟩ ht hr
  obtain ⟨u, hu, -, -, hresponses⟩ := transact_responds tr s
  have response : r = answer tr s := by
    obtain rfl : u.respond (answer tr s) = t := by rw [hu] at ht; cases ht; rfl
    rw [State.respond_responses, hresponses] at hr
    exact (List.singleton_inj.1 (List.append_cancel_left hr)).symm
  subst response
  refine ⟨answer_busError_iff tr hcap, fun hbus => ?_⟩
  rw [transact_of_busError hbus] at ht
  cases ht
  rfl

/-! ## A transaction done twice (20_memory.md R72) -/

theorem Memory.write_write (m : Memory) (i : Nat) (b : Byte) :
    Memory.write (Memory.write m i b) i b = Memory.write m i b := by
  induction m with
  | nil => simp [Memory.write]
  | cons c m ih =>
    obtain ⟨a, x⟩ := c
    by_cases below : i < a
    · simp [Memory.write, below]
    · by_cases here : i = a
      · simp [Memory.write, here]
      · simp [Memory.write, below, here, ih]

theorem State.setInByte_setInByte (s : State) (i : Nat) (b : Byte) : (s.setInByte i b).setInByte i b = s.setInByte i b :=
  congrArg (fun m => { s with inBuf := m }) (Memory.write_write s.inBuf i b)

theorem State.writeReg_writeReg (s : State) (r : Reg) (v : Word) : (s.writeReg r v).writeReg r v = s.writeReg r v := by
  cases r <;> rfl

theorem State.writeReg_respond (s : State) (r : Reg) (v : Word) (ρ : Response) :
    (s.respond ρ).writeReg r v = (s.writeReg r v).respond ρ := by
  cases r <;> rfl

theorem State.readReg_respond (s : State) (r : Reg) (ρ : Response) : (s.respond ρ).readReg r = s.readReg r := by
  cases r <;> rfl

/-- No transaction depends on the responses given before it. -/
theorem answer_respond (tr : Transaction) (s : State) (ρ : Response) : answer tr (s.respond ρ) = answer tr s := by
  cases tr <;> simp only [answer, State.respond_cfg, State.readReg_respond, State.respond_inByte, State.respond_outByte]

theorem written_respond (tr : Transaction) (s : State) (ρ : Response) :
    written tr (s.respond ρ) = (written tr s).respond ρ := by
  cases tr with
  | write32 a v =>
    simp only [written, State.respond_cfg, State.writeReg_respond]
    cases locate s.cfg.cap a <;> rfl
  | write8 a b => simp only [written, State.respond_cfg]; cases locate s.cfg.cap a <;> rfl
  | read32 | read8 => rfl

/-- A write is answered by its offset alone, and a read writes nothing. -/
theorem answer_written (tr : Transaction) (s : State) : answer tr (written tr s) = answer tr s := by
  cases tr with
  | write32 | write8 => simp only [answer, written_cfg]
  | read32 | read8 => rfl

theorem written_written (tr : Transaction) (s : State) : written tr (written tr s) = written tr s := by
  cases tr with
  | write32 a v =>
    simp only [written]
    cases hl : locate s.cfg.cap a with
    | register r => simp only [State.writeReg_cfg, hl, State.writeReg_writeReg]
    | inByte | outByte | unmapped => simp only [hl]
  | write8 a b =>
    simp only [written]
    cases hl : locate s.cfg.cap a with
    | inByte i => simp only [State.setInByte_cfg, hl, State.setInByte_setInByte]
    | register | outByte | unmapped => simp only [hl]
  | read32 | read8 => rfl

/-- Settles O53: done twice, a transaction writes and answers what it does done once. -/
theorem transactionsAreIdempotent : Obligations.TransactionsAreIdempotent := by
  intro tr s t hc ht
  rw [transact_eq tr s hc] at ht
  cases ht
  refine ⟨answer tr s, by rw [State.respond_responses, written_responses], ?_⟩
  rw [transact_eq tr _ hc, written_respond, written_written, answer_respond, answer_written]
  rfl

/-! ## The windows (20_memory.md R64, R65) -/

section
variable {s : State} {i : Nat} (hi : i < s.cfg.cap) (hcap : s.cfg.cap ≤ 65535)
include hi hcap

theorem transact_write_in (b : Byte) : transact (.write8 (0x10000 + i) b) s = .next ((s.setInByte i b).respond .ok) := by
  rw [transact, hostWrite8, locate_in _ _ hi (by omega)]

theorem transact_read_in : transact (.read8 (0x10000 + i)) s = .next (s.respond (.okByte (s.inByte i))) := by
  rw [transact, hostRead8, locate_in _ _ hi (by omega)]

theorem transact_write_out (b : Byte) : transact (.write8 (0x20000 + i) b) s = .next (s.respond .ok) := by
  rw [transact, hostWrite8, locate_out _ _ hi (by omega)]

theorem transact_read_out : transact (.read8 (0x20000 + i)) s = .next (s.respond (.okByte (s.outByte i))) := by
  rw [transact, hostRead8, locate_out _ _ hi (by omega)]

end

theorem not_isRegister_of_ge {a : Nat} (h : 0x80 ≤ a) : ¬ Spec.isRegister a := fun hreg => by
  have := isRegister_lt hreg; omega

/-- Beyond CAP a window at `w` has nothing. -/
theorem transact_beyond_cap {w i : Nat} {s : State} (hw : w = 0x10000 ∨ w = 0x20000) (hi : s.cfg.cap ≤ i) (hmax : i ≤ 0xFFFF)
    (b : Byte) (v : Word) :
    ∀ tr ∈ [Transaction.write8 (w + i) b, .read8 (w + i), .write32 (w + i) v, .read32 (w + i)],
      transact tr s = .next (s.respond .busError) := by
  obtain ⟨hread32, hwrite32⟩ := transact_word_busError (not_isRegister_of_ge (a := w + i) (by omega)) v s
  have beyond : ¬ Spec.isBufferByte s.cfg.cap (w + i) := by unfold Spec.isBufferByte; omega
  obtain ⟨hread8, hwrite8⟩ := transact_byte_busError beyond b
  simp only [List.forall_mem_cons, hwrite8, hread8, hwrite32, hread32, true_and]
  exact List.forall_mem_nil _

/-- Settles O49: the byte accesses reach `IN[i]`, and nothing but buffer bytes is mapped above the registers. -/
theorem inWindowIsTheInputBuffer : Obligations.InWindowIsTheInputBuffer := by
  intro s i b v ⟨_, hcap⟩
  refine ⟨fun hi => ⟨⟨_, transact_write_in hi hcap b, rfl, ?_, fun k hk => ?_⟩, transact_read_in hi hcap, ?_⟩,
    fun hi hmax => transact_beyond_cap (.inl rfl) hi hmax b v⟩
  · rw [State.respond_inByte, State.setInByte_inByte, if_pos rfl]
  · rw [State.respond_inByte, State.setInByte_inByte, if_neg hk]
  · exact (transact_word_busError (not_isRegister_of_ge (by omega)) v s).symm

/-- Settles O50: the byte accesses reach `OUT[i]`, a write without effect. -/
theorem outWindowIsTheOutputBuffer : Obligations.OutWindowIsTheOutputBuffer := fun _ _ b v ⟨_, hcap⟩ =>
  ⟨fun hi => ⟨transact_read_out hi hcap, transact_write_out hi hcap b⟩,
    fun hi hmax => transact_beyond_cap (.inr rfl) hi hmax b v⟩

/-! ## The registers and their access rights (20_memory.md R63, R66) -/

theorem State.writeReg_readOnly {r : Reg} (h : Reg.access r = .readOnly) (s : State) (v : Word) : s.writeReg r v = s := by
  cases r <;> cases h <;> rfl

theorem Reg.eq_cmd_of_writeOnly {r : Reg} (h : Reg.access r = .writeOnly) : r = .cmd := by
  cases r <;> cases h
  rfl

theorem transact_write_readOnly {r : Reg} (h : Reg.access r = .readOnly) (s : State) (v : Word) :
    transact (.write32 (Reg.offset r) v) s = .next (s.respond .ok) := by
  have hcmd : r ≠ .cmd := by rintro rfl; cases h
  rw [transact, hostWrite32_reg r v s hcmd, State.writeReg_readOnly h]

theorem transact_write_readOnly_row {row : Spec.RegisterRow} (hrow : row ∈ Spec.registerTable) (h : row.access = .readOnly)
    (s : State) (v : Word) : transact (.write32 row.offset v) s = .next (s.respond .ok) := by
  obtain ⟨hoffset, -, haccess⟩ := registerTable_row row hrow
  rw [hoffset]
  exact transact_write_readOnly (haccess.symm.trans h) s v

/-- Settles O51: a read writes nothing, and neither does a write against the access right. -/
theorem readsAndForbiddenWritesChangeNothing : Obligations.ReadsAndForbiddenWritesChangeNothing := fun s =>
  ⟨fun a => ⟨_, transact_eq (.read32 a) s (fun _ => nofun)⟩, fun a => ⟨_, transact_eq (.read8 a) s (fun _ => nofun)⟩,
    fun _ hrow h => transact_write_readOnly_row hrow h s, fun ⟨_, hcap⟩ _ b hi => transact_write_out hi hcap b,
    hostRead32_reg .cmd s⟩

theorem held_lt (s : State) (r : Reg) : Spec.held s r < 2 ^ Reg.width r := by
  cases r
  case cmd => exact Nat.one_pos
  all_goals exact BitVec.isLt _

/-- No register's value after power-on depends on CAP. -/
theorem held_powerOn (c : Config) (r : Reg) : Spec.held (State.powerOn c) r = Spec.held State.reset r := by
  cases r <;> rfl

theorem registerTable_reset : ∀ row ∈ Spec.registerTable, Spec.held State.reset row.reg = row.reset := by decide

/-- Settles O47: a row of R63 is the model's register, and below 0x80 nothing else is mapped. -/
theorem registerMapIsTheTable : Obligations.RegisterMapIsTheTable := by
  refine ⟨fun row hrow s => ?_, registerTable_covers, fun a v s _ hreg => transact_word_busError hreg v s,
    fun a b s hlow => ?_⟩
  · obtain ⟨hoffset, hbits, haccess⟩ := registerTable_row row hrow
    refine ⟨?_, s.readReg_toNat row.reg, hbits ▸ held_lt s row.reg,
      (held_powerOn s.cfg row.reg).trans (registerTable_reset row hrow), fun h => transact_write_readOnly_row hrow h s,
      fun h v => ?_, fun h => ?_⟩
    · rw [hoffset, ← State.readReg_eq (s := s) rfl]
      exact hostRead32_reg row.reg s
    · obtain ⟨t, ht, hheld, -, -, -, -, -, hframe⟩ := hostWritesAreNarrowed row hrow h s v
      exact ⟨t, ht, hheld, congrArg State.responses hframe⟩
    · have hcmd := Reg.eq_cmd_of_writeOnly (haccess.symm.trans h)
      exact ⟨by rw [hcmd]; rfl, hcmd⟩
  · have low : ¬ Spec.isBufferByte s.cfg.cap a := fun hbyte => by have := isBufferByte_ge hbyte; omega
    exact transact_byte_busError low b

/-! ## The latest write (20_memory.md R74) -/

/-- What every transaction of a list keeps is kept by the list. -/
theorem performAll_keeps {P : State → Prop} {es : List Transaction}
    (keeps : ∀ tr ∈ es, ∀ s t, P s → transact tr s = .next t → P t) {s t : State}
    (h : performAll (es.map .bus) s = .next t) (hs : P s) : P t := by
  induction es generalizing s with
  | nil => cases h; exact hs
  | cons tr es ih =>
    obtain ⟨u, hu⟩ := transact_next tr s
    rw [List.map_cons, performAll_cons (.bus tr) _ s u hu] at h
    obtain ⟨first, rest⟩ := List.forall_mem_cons.1 keeps
    exact ih rest h (first s u hs hu)

theorem transact_keeps_cfg {tr : Transaction} {s t : State} (h : transact tr s = .next t) : t.cfg = s.cfg := by
  obtain ⟨u, hu, hcfg, -⟩ := transact_responds tr s
  rw [hu] at h
  cases h
  exact hcfg

theorem transact_keeps_inByte {tr : Transaction} {s t : State} {i : Nat} (hc : ∀ w, tr ≠ .write32 0x000 w)
    (hi : ∀ x, tr ≠ .write8 (0x10000 + i) x) (h : transact tr s = .next t) : t.inByte i = s.inByte i := by
  obtain ⟨r, ht⟩ | ⟨r, v, -, -, ht⟩ | ⟨j, b, htr, -, -, ht⟩ := transact_cases tr s hc <;> rw [ht] at h <;> cases h
  · rfl
  · exact s.writeReg_inByte r v i
  · have hij : i ≠ j := by rintro rfl; exact hi b htr
    rw [State.respond_inByte, State.setInByte_inByte, if_neg hij]

theorem transact_keeps_len {tr : Transaction} {s t : State} (hc : ∀ w, tr ≠ .write32 0x000 w)
    (hlen : ∀ x, tr ≠ .write32 0x008 x) (h : transact tr s = .next t) : t.len = s.len := by
  obtain ⟨r, ht⟩ | ⟨r, v, htr, -, ht⟩ | ⟨i, b, -, -, -, ht⟩ := transact_cases tr s hc <;> rw [ht] at h <;> cases h
  · rfl
  · have hr : r ≠ .len := by rintro rfl; exact hlen v htr
    rw [State.respond_len, State.writeReg_len, if_neg hr]
  · rfl

/-- Settles O54: what was written is kept by every transaction in between, and a read answers it. -/
theorem readsReturnTheLatestWrite : Obligations.ReadsReturnTheLatestWrite := by
  intro es s t ⟨_, hcap⟩ hc
  refine ⟨fun i b hi hother h => ?_, fun v hother h => ?_⟩
  · rw [performAll_cons (wb i b) _ s _ (transact_write_in hi hcap b)] at h
    have kept : t.cfg = s.cfg ∧ t.inByte i = b := by
      refine performAll_keeps (P := fun u => u.cfg = s.cfg ∧ u.inByte i = b) (fun tr htr u u' ⟨hcfg, hbyte⟩ hu => ?_)
        h ⟨rfl, ?_⟩
      · exact ⟨(transact_keeps_cfg hu).trans hcfg, (transact_keeps_inByte (hc tr htr) (hother tr htr) hu).trans hbyte⟩
      · rw [State.respond_inByte, State.setInByte_inByte, if_pos rfl]
    obtain ⟨hcfg, hbyte⟩ := kept
    rw [← hcfg] at hi hcap
    rw [transact_read_in hi hcap, hbyte]
    exact ⟨rfl, rfl⟩
  · rw [performAll_cons (wr .len v) _ s _ (hostWrite32_reg .len v s (by decide))] at h
    have hlen : t.len = narrow 16 v := performAll_keeps (P := fun u => u.len = narrow 16 v)
      (fun tr htr u u' hu hu' => (transact_keeps_len (hc tr htr) (hother tr htr) hu').trans hu) h rfl
    have held : Spec.held t .len = v.toNat % 2 ^ 16 := by rw [Spec.held, hlen, narrow_toNat]
    have read := hostRead32_reg .len t
    rw [State.readReg_eq held] at read
    exact ⟨hlen, read⟩

end Sys2Proof.Machine

/-! Which words are commands, and what loading an input does: the statements of 30_encoding.md. -/

namespace Sys2Proof

/-! ## Command words and commands (30_encoding.md R90 to R93) -/

theorem opcodeField_toNat (w : Word) : (opcodeField w).toNat = w.toNat % 256 := by simp [opcodeField]

theorem reservedFieldOf_eq_zero_iff (w : Word) : reservedFieldOf w = 0 ↔ w.toNat / 256 = 0 := by
  have value : (reservedFieldOf w).toNat = w.toNat / 256 := by
    simp only [reservedFieldOf, BitVec.extractLsb'_toNat, Nat.shiftRight_eq_div_pow]
    omega
  rw [← value, BitVec.toNat_eq]
  exact Iff.rfl

theorem decode_of_reservedField {w : Word} (h : w.toNat / 256 ≠ 0) : decode w = .error .reservedField :=
  if_pos (mt (reservedFieldOf_eq_zero_iff w).1 h)

theorem decode_of_reservedOpcode {w : Word} (hfield : w.toNat / 256 = 0) (hop : w.toNat % 256 = 0 ∨ 8 ≤ w.toNat % 256) :
    decode w = .error .reservedOpcode := by
  rw [← opcodeField_toNat] at hop
  rw [decode, if_neg (not_not.2 ((reservedFieldOf_eq_zero_iff w).2 hfield))]
  split
  case h_8 => rfl
  all_goals omega

theorem decode_encode (i : Instr) : decode (encode i) = .ok i := by cases i <;> rfl

theorem encode_toNat (i : Instr) : (encode i).toNat = (opcodeOf i).toNat := by cases i <;> rfl

theorem exists_opcodeOf_eq {n : Nat} (h1 : 1 ≤ n) (h7 : n ≤ 7) : ∃ i, (opcodeOf i).toNat = n := by
  interval_cases n
  exacts [⟨.csum, rfl⟩, ⟨.zcfIp, rfl⟩, ⟨.zcfIcmp, rfl⟩, ⟨.blddg, rfl⟩, ⟨.bldpkt, rfl⟩, ⟨.decode, rfl⟩, ⟨.move, rfl⟩]

/-- A word with RSVD zero and an opcode of R91 is the encoding of a command. -/
theorem exists_encode_eq {w : Word} (hfield : w.toNat / 256 = 0) (h1 : 1 ≤ w.toNat % 256) (h7 : w.toNat % 256 ≤ 7) :
    ∃ i, encode i = w := by
  obtain ⟨i, hi⟩ := exists_opcodeOf_eq h1 h7
  refine ⟨i, BitVec.eq_of_toNat_eq ?_⟩
  rw [encode_toNat, hi]
  omega

/-- A table word of 32 bits that fits is decoded as the command word it is. -/
theorem decodeTableWord_toNat (w : Word) : decodeTableWord 32 w.toNat = (decode w).toOption := by
  rw [decodeTableWord, if_pos ⟨le_rfl, w.isLt⟩, BitVec.ofNat_toNat, BitVec.setWidth_eq]

end Sys2Proof

namespace Sys2Proof.Machine

/-- Settles O10: RSVD and OPCODE split the words; one case of `decode` for each part. -/
theorem everyWordIsACommandOrIllegal : Obligations.EveryWordIsACommandOrIllegal := by
  intro w s
  refine ⟨decode_of_reservedField, decode_of_reservedOpcode, fun hillegal => ?_, fun hfield h1 h7 => ?_⟩
  · by_cases hfield : w.toNat / 256 = 0
    · exact runCommandWord_error w _ s (decode_of_reservedOpcode hfield (hillegal.resolve_left (not_not.2 hfield)))
    · exact runCommandWord_error w _ s (decode_of_reservedField hfield)
  · obtain ⟨i, rfl⟩ := exists_encode_eq hfield h1 h7
    exact ⟨i, rfl, decode_encode i, runCommandWord_ok _ i s (decode_encode i)⟩

/-- Settles O8: the seven words are the encodings of the seven commands. -/
theorem opcodeMapWordsDecode : Obligations.OpcodeMapWordsDecode :=
  ⟨decode_encode .csum, decode_encode .zcfIp, decode_encode .zcfIcmp, decode_encode .blddg, decode_encode .bldpkt,
    decode_encode .decode, decode_encode .move⟩

/-- Settles O9: every command, of which none is ill-formed, is what its word decodes to. -/
theorem decodeUndoesEncode : Obligations.DecodeUndoesEncode := fun i _ => by
  rw [decodeTableWord_toNat, decode_encode]
  exact ⟨rfl, rfl⟩

/-! ## LDIN (30_encoding.md R97) -/

/-- What the byte writes of LDIN make of IN: the bytes of the sequence written one by one at `k`, `k+1`, .... -/
def Memory.writeFrom : Nat → List Byte → Memory → Memory
  | _, [], m => m
  | k, b :: bs, m => Memory.writeFrom (k + 1) bs (Memory.write m k b)

theorem Memory.read_writeFrom (k : Nat) (bs : List Byte) (m : Memory) (i : Nat) :
    Memory.read (Memory.writeFrom k bs m) i = (Memory.read (cellsFrom k bs) i).or (Memory.read m i) := by
  induction bs generalizing k m with
  | nil => rfl
  | cons b bs ih =>
    rw [Memory.writeFrom, ih, cellsFrom, Memory.read_cons]
    by_cases hki : k = i
    · subst hki
      simp [Memory.read_cellsFrom]
    · rw [if_neg hki, Memory.read_write_other m k i b (Ne.symm hki)]

/-- Written one by one from index 0, the bytes read as if filled in at once. -/
theorem Memory.read_writeFrom_zero (bs : List Byte) (m : Memory) (i : Nat) :
    Memory.read (Memory.writeFrom 0 bs m) i = Memory.read (Memory.fill bs m) i := by
  rw [Memory.read_writeFrom, Memory.read_cellsFrom, Memory.read_fill]
  by_cases hi : i < bs.length <;> simp [hi]

/-- The spec lemma of `loadFrom`: inside CAP every byte is written and answered OK. -/
theorem performAll_loadFrom {k : Nat} {bs : List Byte} {s : State} (hfit : k + bs.length ≤ s.cfg.cap)
    (hcap : s.cfg.cap ≤ 65535) : performAll (loadFrom k bs) s =
      .next { s with
        inBuf := Memory.writeFrom k bs s.inBuf, responses := s.responses ++ List.replicate bs.length .ok } := by
  induction bs generalizing k s with
  | nil => simp [loadFrom, performAll, Memory.writeFrom]
  | cons b bs ih =>
    rw [List.length_cons] at hfit
    have first : perform (wb k b) s = .next ((s.setInByte k b).respond .ok) :=
      transact_write_in (by omega) hcap b
    have rest := ih (k := k + 1) (s := (s.setInByte k b).respond .ok) (by rw [State.respond_cfg, State.setInByte_cfg]; omega)
      hcap
    rw [loadFrom, performAll_cons _ _ _ _ first, rest]
    simp [Memory.writeFrom, State.setInByte, State.respond, List.replicate_succ]

/-- `s` once LDIN has loaded `bs`. -/
def State.loadInput (s : State) (bs : List Byte) : State :=
  { s with
    inBuf := Memory.writeFrom 0 bs s.inBuf, len := BitVec.ofNat 16 bs.length
    responses := s.responses ++ List.replicate (bs.length + 1) .ok }

theorem performAll_ldin {bs : List Byte} {s : State} (hfit : bs.length ≤ s.cfg.cap) (hcap : s.cfg.cap ≤ 65535) :
    performAll (ldin bs) s = .next (s.loadInput bs) := by
  have load := performAll_loadFrom (k := 0) (by rwa [Nat.zero_add]) hcap
  have last (u : State) (v : Word) : perform (wr .len v) u = .next ((u.writeReg .len v).respond .ok) :=
    hostWrite32_reg .len v u (by decide)
  rw [ldin, performAll_append _ _ _ _ load, performAll_cons _ _ _ _ (last _ _), performAll]
  simp [State.loadInput, State.writeReg, State.setLen, State.respond, narrow, List.replicate_succ']

theorem State.loadInput_inByte (s : State) (bs : List Byte) (i : Nat) :
    (s.loadInput bs).inByte i = (s.fillInput bs).inByte i := by
  rw [State.inByte, State.inByte]
  exact congrArg (Option.getD · _) (Memory.read_writeFrom_zero bs s.inBuf i)

theorem State.loadInput_len_toNat {s : State} {bs : List Byte} (h : bs.length ≤ 65535) :
    (s.loadInput bs).len.toNat = bs.length := by
  rw [State.loadInput, BitVec.toNat_ofNat]
  omega

theorem State.loadInput_input {s : State} {bs : List Byte} (h : bs.length ≤ 65535) : (s.loadInput bs).input = bs :=
  calc (s.loadInput bs).input
    _ = (s.loadInput bs).inBytes bs.length := by rw [State.input, State.loadInput_len_toNat h]
    _ = (s.fillInput bs).inBytes bs.length := List.map_congr_left fun i _ => s.loadInput_inByte bs i
    _ = bs := s.fillInput_inBytes bs

/-- Settles O55: the writes of LDIN, byte by byte and then LEN, read as one fill of IN. -/
theorem ldinLoadsTheInput : Obligations.LdinLoadsTheInput := by
  intro s bs ⟨_, hcap⟩ hfit
  have hlen := hfit.trans hcap
  refine ⟨s.loadInput bs, performAll_ldin hfit hcap, State.loadInput_input hlen, State.loadInput_len_toNat hlen,
    fun k hk => ?_, rfl⟩
  rw [State.loadInput_inByte, State.fillInput_inByte, dif_neg (Nat.not_lt.2 hk)]

end Sys2Proof.Machine

/-! The checksum arithmetic of 40_checksum.md section 2: the closed form of the fold, its two rounds, one's-complement addition,
and when a checksum is 0xFFFF or 0x0000. -/

namespace Sys2Proof.Machine

/-! ## The fold in closed form (R113) -/

theorem fold_pos_iff (s : Nat) : 0 < fold s ↔ 0 < s :=
  ⟨fun h => Nat.pos_of_ne_zero fun hs => by simp [hs] at h, fold_pos s⟩

theorem fold_eq_zero_iff (s : Nat) : fold s = 0 ↔ s = 0 := by
  have := fold_pos_iff s
  omega

theorem fold_eq_closedForm {s : Nat} (h : 0 < s) : fold s = (s - 1) % 65535 + 1 :=
  fold_eq_of_mod s _ (by omega) (by omega) (by omega)

theorem fold_eq_max_iff (s : Nat) : fold s = 0xFFFF ↔ 0 < s ∧ 65535 ∣ s := by
  rcases Nat.eq_zero_or_pos s with rfl | hs
  · simp
  · rw [fold_eq_closedForm hs]
    omega

theorem foldStep_split {q r : Nat} (h : r < 65536) : foldStep (q * 65536 + r) = q + r := by
  unfold foldStep
  omega

/-- Settles O2, from the closed form, the remainder the fold keeps, and one round on `q * 65536 + r`. -/
theorem foldHasTheClosedForm : Obligations.FoldHasTheClosedForm :=
  ⟨fold_zero, fun s hs => ⟨fold_eq_closedForm hs, fold_pos s hs, fold_le s⟩, fold_mod, fold_eq_zero_iff, fold_eq_max_iff,
    fun _ _ hr => ⟨foldStep_split hr, by omega, by omega, by omega⟩⟩

/-! ## Two rounds (R114) -/

theorem foldStep_small {s : Nat} (h : s ≤ 0xFFFF) : foldStep s = s := by
  unfold foldStep
  omega

/-- The loop and the plain iteration of its body agree, since a round leaves a small `s` as it is. -/
theorem foldRounds_succ (fuel s : Nat) : foldRounds (fuel + 1) s = foldRounds fuel (foldStep s) := by
  by_cases h : 0xFFFF < s
  · rw [foldRounds, if_pos h]
  · have small : s ≤ 0xFFFF := by omega
    rw [foldStep_small small, foldRounds_small _ s small, foldRounds_small _ s small]

theorem fold_foldStep_any (s : Nat) : fold (foldStep s) = fold s := by
  by_cases h : 0xFFFF < s
  · exact fold_foldStep s h
  · rw [foldStep_small (by omega)]

theorem foldStep_le {s : Nat} (h : s < 2 ^ 32) : foldStep s ≤ 0x1FFFE := by
  unfold foldStep
  omega

theorem foldStep_foldStep_le {s : Nat} (h : s < 2 ^ 32) : foldStep (foldStep s) ≤ 0xFFFF := by
  have first := foldStep_le h
  generalize foldStep s = t at first
  unfold foldStep
  omega

theorem fold_eq_two_steps {s : Nat} (h : s < 2 ^ 32) : fold s = foldStep (foldStep s) := by
  rw [← fold_foldStep_any s, ← fold_foldStep_any (foldStep s), fold_small _ (foldStep_foldStep_le h)]

theorem wsum_lt {bs : List Byte} (h : bs.length ≤ 65535) : wsum bs < 2 ^ 31 := by
  have := wsum_le bs
  omega

/-- Settles O3: the second round ends at or below 0xFFFF, where the fold is the value itself. -/
theorem twoFoldStepsSuffice : Obligations.TwoFoldStepsSuffice :=
  ⟨fun s hs => ⟨foldStep_le hs, foldStep_foldStep_le hs, fold_eq_two_steps hs, by
    rw [fold_eq_two_steps hs, foldRounds_succ, foldRounds_succ, foldRounds]⟩, fun _ => wsum_lt⟩

/-! ## One's-complement addition (R115) -/

/-- Folding a summand first changes neither the remainder of the sum by 65535 nor whether it is zero. -/
theorem fold_fold_add (a b : Nat) : fold (fold a + b) = fold (a + b) := by
  have mod := fold_mod a
  have pos := fold_pos_iff a
  refine fold_eq_of_mod _ _ (fold_le _) ?_ ?_
  · rw [fold_mod]
    omega
  · rw [fold_pos_iff]
    omega

theorem fold_add_fold (a b : Nat) : fold (a + fold b) = fold (a + b) := by
  rw [Nat.add_comm, fold_fold_add, Nat.add_comm]

theorem onesAdd_assoc (a b c : Nat) : Spec.onesAdd (Spec.onesAdd a b) c = Spec.onesAdd a (Spec.onesAdd b c) := by
  simp only [Spec.onesAdd, fold_fold_add, fold_add_fold, Nat.add_assoc]

theorem fold_sum_eq_foldl (w : Nat) (ws : List Nat) (hw : w ≤ 0xFFFF) :
    fold (w :: ws).sum = ws.foldl Spec.onesAdd w := by
  induction ws generalizing w with
  | nil => simp [fold_small w hw]
  | cons x ws ih =>
    have tail := ih (Spec.onesAdd w x) (fold_le _)
    rw [List.foldl_cons, ← tail]
    simp [Spec.onesAdd, fold_fold_add, Nat.add_assoc]

/-- Settles O4: folding an operand first does not change the fold of a sum, and a sum does not depend on the order. -/
theorem onesComplementAdditionIsOrderFree : Obligations.OnesComplementAdditionIsOrderFree :=
  ⟨fun a b _ _ => congrArg fold (Nat.add_comm a b), fun a b c _ _ _ => onesAdd_assoc a b c,
    fun w ws hw _ => fold_sum_eq_foldl w ws hw, fun _ _ h => congrArg fold h.sum_eq⟩

/-! ## The range of the checksum (R116) -/

theorem wsum_eq_zero_iff (bs : List Byte) : wsum bs = 0 ↔ ∀ b ∈ bs, b = 0 := by
  have byte (b : Byte) : b.toNat = 0 ↔ b = 0 := BitVec.toNat_inj (y := 0)
  induction bs using byte_pairs_induction with
  | h0 => simp
  | h1 a => simp [byte]
  | h2 a b bs ih => simp [byte, ih, and_assoc]

theorem cksum_eq_iff (bs : List Byte) (c : Half) : cksum bs = c ↔ fold (wsum bs) = 0xFFFF - c.toNat := by
  have := fold_le (wsum bs)
  have := c.isLt
  rw [← BitVec.toNat_inj, cksum_toNat]
  omega

theorem cksum_eq_max_iff (bs : List Byte) : cksum bs = 0xFFFF ↔ ∀ b ∈ bs, b = 0 := by
  rw [cksum_eq_iff, ← wsum_eq_zero_iff, ← fold_eq_zero_iff]
  rfl

theorem cksum_eq_zero_iff (bs : List Byte) : cksum bs = 0x0000 ↔ 0 < wsum bs ∧ 65535 ∣ wsum bs := by
  rw [cksum_eq_iff, ← fold_eq_max_iff]
  rfl

/-- A buffer of one word has the complement of the word as its checksum. -/
theorem cksum_bytes2 (v : Half) : cksum (bytes2 v) = ~~~ v := by
  have word : wsum (bytes2 v) = v.toNat := by simpa using wsum_bytes2 v []
  have := v.isLt
  rw [cksum, word, fold_small _ (by omega), BitVec.ofNat_toNat, BitVec.setWidth_eq]

/-- Settles O5: every value is the checksum of its own complement, and the ends of the range are those of the fold. -/
theorem checksumRange : Obligations.ChecksumRange :=
  ⟨fun c => ⟨bytes2 (~~~ c), by rw [cksum_bytes2, BitVec.not_not]⟩, cksum_eq_max_iff, cksum_eq_zero_iff, by decide⟩

/-! ## The round trip (R117) -/

/-- Storing zero where zero stands changes nothing. -/
theorem splice_zero_eq_self {t : List Byte} {a : Nat} (hlen : a + 2 ≤ t.length) (h0 : t[a]? = some 0)
    (h1 : t[a + 1]? = some 0) : splice t a (bytes2 0) = t := by
  refine List.ext_getElem? fun i => ?_
  rw [splice_get _ _ _ _ hlen]
  split
  · obtain rfl | rfl : i = a ∨ i = a + 1 := by simp only [bytes2_length] at *; omega
    · rw [h0, Nat.sub_self]; rfl
    · rw [h1, Nat.add_sub_cancel_left]; rfl
  · rfl

/-- Storing `v` at an even place that holds zero adds `v` to the word sum. -/
theorem wsum_splice_of_zero {t : List Byte} {a : Nat} (v : Half) (even : a % 2 = 0) (hlen : a + 2 ≤ t.length)
    (h0 : t[a]? = some 0) (h1 : t[a + 1]? = some 0) : wsum (splice t a (bytes2 v)) = wsum t + v.toNat := by
  have before : wsum t = wsum (t.take a) + 0 + wsum (t.drop (a + 2)) := by
    conv_lhs => rw [← splice_zero_eq_self hlen h0 h1]
    exact wsum_splice2 t a 0 even hlen
  rw [wsum_splice2 t a v even hlen]
  omega

/-- The validity law: the sum grows by `0xFFFF` minus its own fold, so to a positive multiple of 65535. -/
theorem cksum_withChecksum {t : List Byte} {a : Nat} (even : a % 2 = 0) (hlen : a + 2 ≤ t.length) (h0 : t[a]? = some 0)
    (h1 : t[a + 1]? = some 0) : cksum (withChecksum a t) = 0x0000 := by
  have mod := fold_mod (wsum t)
  have pos := fold_pos_iff (wsum t)
  have le := fold_le (wsum t)
  rw [cksum_eq_zero_iff, withChecksum, wsum_splice_of_zero _ even hlen h0 h1, cksum_toNat]
  omega

/-- Settles O6, by the validity law: the two bytes written one after the other are the checksum stored big-endian. -/
theorem roundTripValidityLaw : Obligations.RoundTripValidityLaw := fun bs o even hlen h0 h1 => by
  rw [← splice_bytes2_eq_set bs o _ hlen]
  exact cksum_withChecksum even hlen h0 h1

/-! ## Zero padding (R118) -/

theorem wsum_append_zero_of_odd {bs : List Byte} (h : bs.length % 2 = 1) : wsum (bs ++ [0]) = wsum bs := by
  induction bs using byte_pairs_induction with
  | h0 => simp at h
  | h1 a => simp
  | h2 a b bs ih =>
    have odd : bs.length % 2 = 1 := by simp only [List.length_cons] at h; omega
    rw [List.cons_append, List.cons_append, wsum_pair, ih odd, wsum_pair]

theorem cksum_append_zero_of_odd {bs : List Byte} (h : bs.length % 2 = 1) : cksum (bs ++ [0]) = cksum bs := by
  rw [cksum, wsum_append_zero_of_odd h, cksum]

/-- Settles O7: after an odd length the zero byte is the missing low byte, and after an even one a new word begins. -/
theorem zeroPaddingKeepsTheChecksum : Obligations.ZeroPaddingKeepsTheChecksum := fun bs =>
  ⟨cksum_append_zero_of_odd, fun even => by rw [cksum, wsum_append_even bs [0, 0] even, cksum]; rfl,
    fun even b => wsum_append_even bs [b] even⟩

end Sys2Proof.Machine

/-! The commands of 40_checksum.md, CSUM, ZCF.IP and ZCF.ICMP: what each completes with and when it aborts, what the commands
leave unchanged, and that what the builders build checks to 0x0000 under CSUM. -/

namespace Sys2Proof.Machine

/-! ## When a command completes, and what a completion is -/

theorem exec_of_abortKind_none {i : Instr} {s : State} (h : abortKind i s = none) :
    exec i s = .next ((delivered i s).setErr 0) := by rw [exec_eq, h]; rfl

theorem exec_of_abortKind_some {i : Instr} {s : State} {k : ErrKind} (h : abortKind i s = some k) :
    exec i s = .next (s.setErr k.code) := by rw [exec_eq, h]; rfl

theorem abortKind_of_tooLong {i : Instr} {s : State} (hi : i ≠ .move) (h : s.cfg.cap < s.len.toNat) :
    abortKind i s = some .badLength := if_pos ⟨hi, h⟩

theorem abortKind_csum_none_iff (s : State) : abortKind .csum s = none ↔ s.len.toNat ≤ s.cfg.cap := by
  simp [abortKind]

theorem abortKind_zcfIp_none_iff (s : State) :
    abortKind .zcfIp s = none ↔ s.len.toNat ≤ s.cfg.cap ∧ 12 ≤ s.len.toNat := by simp [abortKind, check_eq_none]

theorem abortKind_zcfIcmp_none_iff (s : State) :
    abortKind .zcfIcmp s = none ↔ s.len.toNat ≤ s.cfg.cap ∧ 4 ≤ s.len.toNat := by simp [abortKind, check_eq_none]

theorem abortKind_blddg_none_iff (s : State) : abortKind .blddg s = none ↔ 8 + s.len.toNat ≤ s.cfg.cap := by
  simp only [abortKind, check_eq_none, and_true, ne_eq, reduceCtorEq, not_false_eq_true, true_and]
  omega

theorem abortKind_bldpkt_none_iff (s : State) :
    abortKind .bldpkt s = none ↔ headerLen s.operands.ipOpt + s.len.toNat ≤ s.cfg.cap := by
  simp only [abortKind, check_eq_none, and_true, ne_eq, reduceCtorEq, not_false_eq_true, true_and]
  omega

/-! ## CSUM (R110, R111) -/

theorem exec_csum_completes {s : State} (h : s.len.toNat ≤ s.cfg.cap) :
    exec .csum s = .next ((s.setCsumRes (cksum s.input)).setErr 0) :=
  exec_of_abortKind_none ((abortKind_csum_none_iff s).2 h)

/-- An input written out has the length written out. -/
theorem State.len_toNat_of_input {s : State} {bs : List Byte} (h : s.input = bs) : s.len.toNat = bs.length := by
  rw [← h, State.input_length]

/-- Settles O18, from the completion and the abort of CSUM; the example's input has length 8 and so fits. -/
theorem csumComputesTheChecksum : Obligations.CsumComputesTheChecksum := by
  refine ⟨rfl, fun s => ⟨exec_csum_completes, fun h => exec_of_abortKind_some (abortKind_of_tooLong (by decide) h),
    fun hcap hinput => ?_⟩⟩
  have fits : s.len.toNat ≤ s.cfg.cap := (State.len_toNat_of_input hinput).trans_le hcap
  have value : cksum s.input = 0xF7FF := by rw [hinput]; decide
  rw [exec_csum_completes fits, value]
  rfl

theorem State.input_of_len_zero {s : State} (h : s.len = 0) : s.input = [] := by rw [State.input, h]; rfl

theorem State.input_of_len_one {s : State} (h : s.len = 1) : s.input = [s.inByte 0] := by rw [State.input, h]; rfl

theorem State.mem_input {s : State} {b : Byte} : b ∈ s.input ↔ ∃ k < s.len.toNat, s.inByte k = b := by
  simp [State.input, State.inBytes]

theorem cksum_singleton (a : Byte) : cksum [a] = ~~~ BitVec.ofNat 16 (a.toNat * 256) := by
  have := a.isLt
  rw [cksum, wsum_singleton, fold_small _ (by omega)]

/-- A CSUM whose state agrees with `s` on CAP, LEN and the input completes as it does in `s`, with the same checksum: CSUM
depends on its operands only. -/
theorem csumRes_congr {s t u v : State} (hcfg : u.cfg = s.cfg) (hlen : u.len = s.len)
    (hbytes : ∀ k, k < s.len.toNat → u.inByte k = s.inByte k) (hs : exec .csum s = .next t) (ht : t.err = 0)
    (hu : exec .csum u = .next v) : v.csumRes = t.csumRes := by
  rw [← hlen] at hbytes
  obtain ⟨herr, results⟩ := resultsDependOnNamedStateOnly .csum u s v t ⟨hcfg, hlen, hbytes⟩ hu hs
  exact results (herr.trans ht)

/-- Settles O19: each case is the checksum of the input that the case names. -/
theorem csumCornerCases : Obligations.CsumCornerCases := by
  intro s hfits
  have completes := exec_csum_completes hfits
  have of_input {bs : List Byte} {c : Half} (hinput : s.input = bs) (value : cksum bs = c) : cksum s.input = c :=
    hinput ▸ value
  refine ⟨_, completes, rfl, ?empty, ?one, ?one_01, ?one_FF, ?odd, ?outside, ?zeros, ?ones, ?carry, by decide,
    cksum_toNat _⟩
  case empty => exact fun hlen => of_input (State.input_of_len_zero hlen) (by decide)
  case one => exact fun hlen => of_input (State.input_of_len_one hlen) (cksum_singleton _)
  case one_01 => exact fun hlen hb => of_input (hb ▸ State.input_of_len_one hlen) (by decide)
  case one_FF => exact fun hlen hb => of_input (hb ▸ State.input_of_len_one hlen) (by decide)
  case odd => exact fun hodd => (cksum_append_zero_of_odd (by rwa [State.input_length])).symm
  case outside => exact fun u v hcfg hlen hbytes => csumRes_congr hcfg hlen hbytes completes rfl
  case zeros =>
    refine fun hzero => (cksum_eq_max_iff _).2 fun b hb => ?_
    obtain ⟨k, hk, rfl⟩ := State.mem_input.1 hb
    exact hzero k hk
  case ones => exact fun hinput => ⟨hinput ▸ by decide, of_input hinput (by decide)⟩
  case carry => exact fun hinput => ⟨hinput ▸ by decide, by decide, of_input hinput (by decide)⟩

/-! ## ZCF.IP and ZCF.ICMP (R119, R120) -/

/-- What a completed ZCF leaves of `s`: the input in OUT, with the field at `off` zero. -/
def State.zeroField (s : State) (off : Nat) : State := (s.putOutput (splice s.input off (bytes2 0))).setErr 0

theorem zeroChecksumField_aborts {s : State} {off : Nat} (h : s.cfg.cap < s.len.toNat ∨ s.len.toNat < off + 2) :
    zeroChecksumField off s = .next (s.setErr 2) := by
  rw [zeroChecksumField_eq, ← ite_or, if_pos h]

theorem zeroChecksumField_completes {s : State} {off : Nat} (hlong : off + 2 ≤ s.len.toNat) (hfits : s.len.toNat ≤ s.cfg.cap) :
    zeroChecksumField off s = .next (s.zeroField off) := by
  rw [zeroChecksumField_eq, if_neg (by omega), if_neg (by omega)]
  rfl

theorem State.putOutput_outByte_beyond (s : State) {bs : List Byte} {k : Nat} (h : bs.length ≤ k) :
    (s.putOutput bs).outByte k = s.outByte k := by
  rw [State.putOutput_outByte, dif_neg (by omega)]

/-- A delivery of at most 65535 bytes is the output; a longer one would not have its length in OUT_LEN. -/
theorem State.putOutput_output_of_le (s : State) {bs : List Byte} (h : bs.length ≤ 65535) : (s.putOutput bs).output = bs := by
  rw [State.putOutput_output, List.take_of_length_le]
  rw [BitVec.toNat_ofNat]
  omega

section
variable {s : State} {off : Nat} (hlong : off + 2 ≤ s.len.toNat)
include hlong

theorem zeroed_length : (splice s.input off (bytes2 0)).length = s.len.toNat := by
  rw [splice_bytes2_length _ _ _ (by simpa using hlong), State.input_length]

theorem State.zeroField_frame :
    s.zeroField off = { s with outBuf := (s.zeroField off).outBuf, outLen := s.len, err := 0 } := by
  have outLen : (s.zeroField off).outLen = s.len := by
    rw [State.zeroField, State.setErr_outLen, State.putOutput_outLen, zeroed_length hlong, BitVec.ofNat_toNat,
      BitVec.setWidth_eq]
  calc s.zeroField off
    _ = { s with outBuf := (s.zeroField off).outBuf, outLen := (s.zeroField off).outLen, err := 0 } := rfl
    _ = { s with outBuf := (s.zeroField off).outBuf, outLen := s.len, err := 0 } := by rw [outLen]

theorem State.zeroField_outByte {k : Nat} (hk : k < s.len.toNat) :
    (s.zeroField off).outByte k = if k = off ∨ k = off + 1 then 0x00 else s.inByte k := by
  have length := zeroed_length hlong
  have stored : (splice s.input off (bytes2 0))[k]? = some (if k = off ∨ k = off + 1 then 0x00 else s.inByte k) := by
    rw [splice_get _ _ _ _ (by simpa using hlong), bytes2_length]
    by_cases field : off ≤ k ∧ k < off + 2
    · obtain rfl | rfl : k = off ∨ k = off + 1 := by omega
      · simp [bytes2]
      · simp [bytes2]
    · rw [if_neg field, if_neg (by omega)]
      exact s.inBytes_get _ k hk
  rw [State.zeroField, State.setErr_outByte, State.putOutput_outByte, dif_pos (by omega)]
  exact (List.getElem_eq_iff _).2 stored

theorem State.zeroField_outByte_beyond {k : Nat} (hk : s.len.toNat ≤ k) : (s.zeroField off).outByte k = s.outByte k :=
  s.putOutput_outByte_beyond ((zeroed_length hlong).trans_le hk)

theorem State.zeroField_output : (s.zeroField off).output = splice s.input off (bytes2 0) := by
  have := s.len.isLt
  have length := zeroed_length hlong
  exact s.putOutput_output_of_le (by omega)

/-- A field that is zero already is left as it is. -/
theorem State.zeroField_output_of_zero (h0 : s.inByte off = 0) (h1 : s.inByte (off + 1) = 0) :
    (s.zeroField off).output = s.input := by
  rw [State.zeroField_output hlong]
  refine splice_zero_eq_self (by simpa using hlong) ?_ ?_
  · rw [← h0]; exact s.inBytes_get _ _ (by omega)
  · rw [← h1]; exact s.inBytes_get _ _ (by omega)

end

/-- Settles O20: the field at offset 10. -/
theorem zcfIpZeroesTheHeaderField : Obligations.ZcfIpZeroesTheHeaderField := by
  refine ⟨rfl, fun s => ⟨fun h => zeroChecksumField_aborts (.inl h), fun h => zeroChecksumField_aborts (.inr h),
    fun hlong hfits => ?_⟩⟩
  refine ⟨s.zeroField 10, zeroChecksumField_completes hlong hfits, State.zeroField_frame hlong,
    fun _ => State.zeroField_outByte hlong, fun _ => State.zeroField_outByte_beyond hlong,
    State.zeroField_output_of_zero hlong, fun hinput => ?_⟩
  rw [State.zeroField_output hlong, hinput]
  decide

/-- Settles O21: the field at offset 2. -/
theorem zcfIcmpZeroesTheMessageField : Obligations.ZcfIcmpZeroesTheMessageField := by
  refine ⟨rfl, fun s => ⟨fun h => zeroChecksumField_aborts (.inl h), fun h => zeroChecksumField_aborts (.inr h),
    fun hlong hfits => ?_⟩⟩
  refine ⟨s.zeroField 2, zeroChecksumField_completes hlong hfits, State.zeroField_frame hlong,
    fun _ => State.zeroField_outByte hlong, fun _ => State.zeroField_outByte_beyond hlong, fun hinput => ?_⟩
  rw [State.zeroField_output hlong, hinput]
  decide

/-! ## What the builders build (41_datagram.md R142, 42_packet.md R159) -/

theorem State.cksum_datagram (s : State) : cksum (withChecksum 2 s.request) = 0x0000 :=
  cksum_withChecksum rfl (by have := s.request_length; omega) rfl rfl

theorem State.cksum_builtHeader (s : State) : cksum (withChecksum 10 s.header) = 0x0000 := by
  have := s.header_length
  have := headerLen_ge s.operands.ipOpt
  exact cksum_withChecksum rfl (by omega) rfl rfl

theorem State.builtHeader_length (s : State) : (withChecksum 10 s.header).length = headerLen s.operands.ipOpt := by
  have length := s.header_length
  have := headerLen_ge s.operands.ipOpt
  rw [withChecksum_length (by omega), length]

theorem State.fillInput_inBytes_take (s : State) {bs : List Byte} {n : Nat} (h : n ≤ bs.length) :
    (s.fillInput bs).inBytes n = bs.take n := by
  refine List.ext_getElem (by simpa using h) fun i h1 h2 => ?_
  have hi : i < bs.length := by rw [List.length_take] at h2; omega
  simp [State.inBytes, State.fillInput_inByte, hi]

theorem exec_move (s : State) : exec .move s = .next ((delivered .move s).setErr 0) := execMove_eq s

/-- After a MOVE the first `v` bytes of the input are those of the output. -/
theorem State.move_input_take {s : State} {v : Half} (hv : v.toNat ≤ s.outLen.toNat) :
    (((delivered .move s).setErr 0).setLen v).input = s.output.take v.toNat :=
  s.fillInput_inBytes_take (hv.trans_eq s.output_length.symm)

/-- CSUM after MOVE, with LEN set to `v`, checks the first `v` bytes of the output. -/
theorem csum_verifies_moved {s : State} {v : Half} (hfits : v.toNat ≤ s.cfg.cap) (hv : v.toNat ≤ s.outLen.toNat)
    (hvalid : cksum (s.output.take v.toNat) = 0x0000) :
    ∃ t, exec .csum (((delivered .move s).setErr 0).setLen v) = .next t ∧ t.err = 0 ∧ t.csumRes = 0x0000 :=
  ⟨_, exec_csum_completes hfits, rfl, (congrArg cksum (State.move_input_take hv)).trans hvalid⟩

/-- A builder that completes leaves what it delivered as the output. -/
theorem exec_builder_completes {i : Instr} {s : State} {bs : List Byte} {c : Half} (hk : abortKind i s = none)
    (hresult : delivered i s = (s.putOutput bs).setCsumRes c) (hcap : s.cfg.Legal) (hfits : bs.length ≤ s.cfg.cap) :
    ∃ t, exec i s = .next t ∧ t.cfg = s.cfg ∧ t.outLen.toNat = bs.length ∧ t.output = bs := by
  refine ⟨_, exec_of_abortKind_none hk, ?_⟩
  rw [hresult]
  exact ⟨rfl, State.putOutput_outLen_toNat hcap hfits, s.putOutput_output_of_le (hfits.trans hcap.2)⟩

theorem csum_verifies_datagram {s : State} (hcap : s.cfg.Legal) (hfits : 8 + s.len.toNat ≤ s.cfg.cap) :
    ∃ s1 s2 s3, exec .blddg s = .next s1 ∧ exec .move s1 = .next s2 ∧ exec .csum s2 = .next s3 ∧
      s3.err = 0 ∧ s3.csumRes = 0x0000 := by
  have length := s.datagram_length
  obtain ⟨s1, hs1, hcfg, houtLen, houtput⟩ := exec_builder_completes ((abortKind_blddg_none_iff s).2 hfits) rfl hcap
    (length.trans_le hfits)
  have valid : cksum (s1.output.take s1.outLen.toNat) = 0x0000 := by
    rw [List.take_of_length_le s1.output_length.le, houtput, s.cksum_datagram]
  obtain ⟨s3, hs3, result⟩ := csum_verifies_moved (by rw [hcfg]; omega) le_rfl valid
  exact ⟨s1, _, s3, hs1, exec_move s1, hs3, result⟩

theorem csum_verifies_builtHeader {s : State} (hcap : s.cfg.Legal)
    (hfits : headerLen s.operands.ipOpt + s.len.toNat ≤ s.cfg.cap) :
    ∃ s1 s2 s3, exec .bldpkt s = .next s1 ∧ exec .move s1 = .next s2 ∧
      exec .csum { s2 with len := BitVec.ofNat 16 (headerLen s.operands.ipOpt) } = .next s3 ∧
      s3.err = 0 ∧ s3.csumRes = 0x0000 := by
  have length := s.packet_length
  obtain ⟨s1, hs1, hcfg, houtLen, houtput⟩ := exec_builder_completes ((abortKind_bldpkt_none_iff s).2 hfits) rfl hcap
    (length.trans_le hfits)
  obtain ⟨-, hmax⟩ := hcap
  have len : (BitVec.ofNat 16 (headerLen s.operands.ipOpt)).toNat = headerLen s.operands.ipOpt := by
    rw [BitVec.toNat_ofNat]
    omega
  have valid : cksum (s1.output.take (BitVec.ofNat 16 (headerLen s.operands.ipOpt)).toNat) = 0x0000 := by
    rw [len, houtput, List.take_left' s.builtHeader_length, s.cksum_builtHeader]
  obtain ⟨s3, hs3, result⟩ := csum_verifies_moved (by rw [hcfg]; omega) (by omega) valid
  exact ⟨s1, _, s3, hs1, exec_move s1, hs3, result⟩

/-- Settles O32: MOVE makes the output the input, and both checksums are valid by the round-trip law. -/
theorem whatTheBuildersBuildVerifies : Obligations.WhatTheBuildersBuildVerifies := by
  refine ⟨fun s => csum_verifies_datagram, fun s H hcap hH hfits => ?_⟩
  rw [← headerLen_eq] at hH
  subst hH
  exact csum_verifies_builtHeader hcap hfits

/-! ## Frames -/

theorem State.inByte_congr {s t : State} (hbuf : t.inBuf = s.inBuf) (hresets : t.resets = s.resets) (k : Nat) :
    t.inByte k = s.inByte k := by rw [State.inByte, State.inByte, hbuf, hresets]

theorem State.outByte_congr {s t : State} (hbuf : t.outBuf = s.outBuf) (hresets : t.resets = s.resets) (k : Nat) :
    t.outByte k = s.outByte k := by rw [State.outByte, State.outByte, hbuf, hresets]

/-- Settles O44, from the writers of each piece of state: neither command writes a buffer. -/
theorem csumAndDecodeFrame : Obligations.CsumAndDecodeFrame := by
  intro i s t hi h
  obtain ⟨hcfg, hoperands, -, -, hresets, hin, hout, hcsum, hdec⟩ := eachPieceOfStateHasItsWriters i s t h
  obtain ⟨hinBuf, hlen⟩ := hin (by rintro rfl; simp at hi)
  obtain ⟨houtBuf, houtLen⟩ := hout (hi.imp_right .inl)
  exact ⟨State.inByte_congr hinBuf hresets, State.outByte_congr houtBuf hresets, hoperands, hlen, houtLen, hcfg,
    fun hi => hdec (by rw [hi]; decide), fun hi => hcsum (.inr (.inr (.inl hi)))⟩

/-- The number of bytes that a completed `i` stores into OUT. -/
def resultLength (i : Instr) (s : State) : Nat :=
  match i with
  | .zcfIp | .zcfIcmp => s.len.toNat
  | .blddg => 8 + s.len.toNat
  | .bldpkt => headerLen s.operands.ipOpt + s.len.toNat
  | .csum | .decode | .move => 0

theorem delivered_outByte_beyond {i : Instr} {s : State} (hk : abortKind i s = none) {k : Nat} (h : resultLength i s ≤ k) :
    (delivered i s).outByte k = s.outByte k := by
  cases i with
  | csum | decode | move => rfl
  | zcfIp =>
    obtain ⟨-, hlong⟩ := (abortKind_zcfIp_none_iff s).1 hk
    exact State.zeroField_outByte_beyond hlong h
  | zcfIcmp =>
    obtain ⟨-, hlong⟩ := (abortKind_zcfIcmp_none_iff s).1 hk
    exact State.zeroField_outByte_beyond hlong h
  | blddg => rw [delivered, State.setCsumRes_outByte, s.putOutput_outByte_beyond (s.datagram_length.trans_le h)]
  | bldpkt => rw [delivered, State.setCsumRes_outByte, s.putOutput_outByte_beyond (s.packet_length.trans_le h)]

theorem exec_outByte_beyond {i : Instr} {s t : State} (ht : exec i s = .next t) {k : Nat} (h : resultLength i s ≤ k) :
    t.outByte k = s.outByte k := by
  obtain ⟨e, -, rfl⟩ | ⟨hk, rfl⟩ := exec_cases ht
  · rfl
  · exact delivered_outByte_beyond hk h

theorem exec_outByte_of_abort {i : Instr} {s t : State} (ht : exec i s = .next t) (herr : t.err ≠ 0) (k : Nat) :
    t.outByte k = s.outByte k := by
  obtain ⟨e, -, rfl⟩ | ⟨-, rfl⟩ := exec_cases ht
  · rfl
  · exact absurd rfl herr

/-- Settles O45: the registers and IN from the writers of each piece of state, OUT from the length of the result. -/
theorem outputCommandsFrame : Obligations.OutputCommandsFrame := by
  intro i s t n hi h
  have hn : n = resultLength i s := by obtain ⟨rfl | rfl, rfl⟩ | ⟨rfl, rfl⟩ | ⟨rfl, rfl⟩ := hi <;> rfl
  have hmove : i ≠ .move := by rintro rfl; simp at hi
  have hdecode : i ≠ .decode := by rintro rfl; simp at hi
  obtain ⟨hcfg, hoperands, -, -, hresets, hin, -, hcsum, hdec⟩ := eachPieceOfStateHasItsWriters i s t h
  obtain ⟨hinBuf, hlen⟩ := hin hmove
  exact ⟨State.inByte_congr hinBuf hresets, fun k hk => exec_outByte_beyond h (hn.symm.trans_le hk),
    exec_outByte_of_abort h, hoperands, hlen, hdec hdecode, hcfg, fun hi => hcsum (hi.imp_right .inl)⟩

end Sys2Proof.Machine

/-! The command of 41_datagram.md, BLDDG: the datagram it builds, byte by byte, when it aborts, and that the sequence done by
hand gives the same. -/

namespace Sys2Proof.Machine

/-! ## The datagram (41_datagram.md R140; layout 30_encoding.md R105) -/

/-- The Echo Request with its checksum filled in: what a completed BLDDG leaves at the beginning of OUT. -/
def State.datagram (s : State) : List Byte := withChecksum 2 s.request

/-- What a completed BLDDG leaves of `s`. -/
def State.afterBlddg (s : State) : State := (delivered .blddg s).setErr 0

/-- The eight header bytes of R105, the checksum's own two among them, and the payload. -/
theorem State.datagram_eq (s : State) : s.datagram =
    [0x08, 0x00, (cksum s.request).extractLsb' 8 8, (cksum s.request).extractLsb' 0 8,
      s.operands.icmpId.extractLsb' 8 8, s.operands.icmpId.extractLsb' 0 8,
      s.operands.icmpSeq.extractLsb' 8 8, s.operands.icmpSeq.extractLsb' 0 8] ++ s.input := rfl

theorem State.datagram_payload (s : State) {k : Nat} (hk : k < s.len.toNat) : s.datagram[8 + k]? = some (s.inByte k) := by
  have after : 8 + k - 8 = k := Nat.add_sub_cancel_left 8 k
  rw [State.datagram_eq, List.getElem?_append_right (Nat.le_add_right 8 k)]
  exact after.symm ▸ s.inBytes_get _ k hk

/-- Storing the checksum is undone by storing zero over it. -/
theorem State.datagram_zeroed (s : State) : (s.datagram.set 2 0).set 3 0 = s.request := rfl

/-- Putting the checksum at bytes 2 and 3 by hand. -/
theorem State.datagram_eq_set (s : State) : s.datagram =
    (s.request.set 2 ((cksum s.request).extractLsb' 8 8)).set 3 ((cksum s.request).extractLsb' 0 8) :=
  splice_bytes2_eq_set s.request 2 (cksum s.request) (by have := s.request_length; omega)

/-- The request of the example in R140. -/
theorem State.request_of_zero_operands {s : State} (hlen : s.len = 0) (hid : s.operands.icmpId = 0) (hseq : s.operands.icmpSeq = 0) :
    s.request = [0x08, 0x00, 0x00, 0x00, 0x00, 0x00, 0x00, 0x00] := by
  rw [State.request, hid, hseq, State.input_of_len_zero hlen]
  rfl

/-! ## What BLDDG does -/

theorem exec_blddg_completes {s : State} (h : 8 + s.len.toNat ≤ s.cfg.cap) : exec .blddg s = .next s.afterBlddg :=
  exec_of_abortKind_none ((abortKind_blddg_none_iff s).2 h)

/-- BLDDG has ERR 0 only after it completed, and then the datagram fits. -/
theorem exec_blddg_err_zero {s t : State} (ht : exec .blddg s = .next t) (herr : t.err = 0) :
    8 + s.len.toNat ≤ s.cfg.cap ∧ t = s.afterBlddg := by
  obtain ⟨k, -, rfl⟩ | ⟨hk, rfl⟩ := exec_cases ht
  · exact absurd herr k.code_ne_zero
  · exact ⟨(abortKind_blddg_none_iff s).1 hk, rfl⟩

/-- The check of the result comes after that of the input (60_exceptions.md R194, R199). -/
theorem exec_blddg_overflow {s : State} (hlen : s.len.toNat ≤ s.cfg.cap) (h : s.cfg.cap < 8 + s.len.toNat) :
    exec .blddg s = .next (s.setErr 3) := by
  refine exec_of_abortKind_some (k := .overflow) ?_
  have input_fits : ¬ (Instr.blddg ≠ .move ∧ s.cfg.cap < s.len.toNat) := by omega
  rw [abortKind, if_neg input_fits]
  exact if_pos h

theorem State.afterBlddg_outByte (s : State) {k : Nat} {b : Byte} (h : s.datagram[k]? = some b) :
    s.afterBlddg.outByte k = b := by
  obtain ⟨hk, rfl⟩ := List.getElem?_eq_some_iff.1 h
  exact (s.putOutput_outByte s.datagram k).trans (dif_pos hk)

theorem State.afterBlddg_outByte_payload (s : State) {k : Nat} (hk : k < s.len.toNat) :
    s.afterBlddg.outByte (8 + k) = s.inByte k := s.afterBlddg_outByte (s.datagram_payload hk)

theorem State.afterBlddg_outByte_beyond (s : State) {k : Nat} (hk : 8 + s.len.toNat ≤ k) :
    s.afterBlddg.outByte k = s.outByte k := s.putOutput_outByte_beyond (s.datagram_length.trans_le hk)

section
variable {s : State} (hcap : s.cfg.Legal) (hfits : 8 + s.len.toNat ≤ s.cfg.cap)
include hcap hfits

theorem State.afterBlddg_outLen_toNat : s.afterBlddg.outLen.toNat = 8 + s.len.toNat :=
  (State.putOutput_outLen_toNat hcap (s.datagram_length.trans_le hfits)).trans s.datagram_length

theorem State.afterBlddg_output : s.afterBlddg.output = s.datagram :=
  s.putOutput_output_of_le ((s.datagram_length.trans_le hfits).trans hcap.2)

end

/-- Settles O22: the aborts in the order of the checks, the header bytes as they stand in the datagram, and the payload after
them. -/
theorem blddgBuildsTheEchoRequest : Obligations.BlddgBuildsTheEchoRequest := by
  refine ⟨rfl, fun s hcap => ⟨fun h => exec_of_abortKind_some (abortKind_of_tooLong (by decide) h), exec_blddg_overflow,
    fun hfits => ?_⟩⟩
  have header {k : Nat} {b : Byte} : s.datagram[k]? = some b → s.afterBlddg.outByte k = b := s.afterBlddg_outByte
  refine ⟨s.afterBlddg, exec_blddg_completes hfits, rfl, State.afterBlddg_outLen_toNat hcap hfits, rfl, header rfl, header rfl,
    header rfl, header rfl, header rfl, header rfl, header rfl, header rfl, fun k => s.afterBlddg_outByte_payload,
    fun k => s.afterBlddg_outByte_beyond, fun hlen hid hseq => ?_⟩
  have request := State.request_of_zero_operands hlen hid hseq
  have checksum : cksum s.request = 0xF7FF := by rw [request]; decide
  refine ⟨?_, checksum⟩
  rw [State.afterBlddg_output hcap hfits, State.datagram_eq_set, checksum, request]
  decide

/-! ## The datagram's own checksum (R142) -/

/-- Settles O23: ERR 0 says that BLDDG completed, and the output of a completed BLDDG is the datagram. -/
theorem blddgOutputInvariants : Obligations.BlddgOutputInvariants := by
  intro s t hcap ht herr
  obtain ⟨hfits, rfl⟩ := exec_blddg_err_zero ht herr
  rw [State.afterBlddg_output hcap hfits, State.datagram_zeroed]
  exact ⟨s.afterBlddg_outByte rfl, s.afterBlddg_outByte rfl,
    memRead2_of_bytes _ 2 _ (s.afterBlddg_outByte rfl) (s.afterBlddg_outByte rfl),
    s.cksum_datagram, fun k => s.afterBlddg_outByte_payload⟩

/-! ## The sequence done by hand (R144) -/

/-- The host's write of a command's word runs the command and is answered OK. -/
theorem perform_cmd {i : Instr} {s t : State} (h : exec i s = .next t) : perform (cmd i) s = .next (t.respond .ok) :=
  calc perform (cmd i) s
    _ = andThen (runCommandWord (encode i) s) (fun u => u.respond .ok) := hostWrite32_cmd (encode i) s
    _ = .next (t.respond .ok) := by rw [runCommandWord_ok _ i s (decode_encode i), h, andThen_next]

/-- LDIN and then CSUM leaves the checksum of what was loaded. -/
theorem performAll_ldin_csum {bs : List Byte} {s : State} (hcap : s.cfg.Legal) (hfit : bs.length ≤ s.cfg.cap) :
    ∃ u, performAll (ldin bs ++ [cmd .csum]) s = .next u ∧ u.err = 0 ∧ u.csumRes = cksum bs ∧ u.input = bs := by
  obtain ⟨-, hmax⟩ := hcap
  have input : (s.loadInput bs).input = bs := State.loadInput_input (hfit.trans hmax)
  have fits : (s.loadInput bs).len.toNat ≤ (s.loadInput bs).cfg.cap :=
    (State.len_toNat_of_input input).trans_le hfit
  have csum := perform_cmd (exec_csum_completes fits)
  have run := performAll_append _ [cmd .csum] _ _ (performAll_ldin hfit hmax)
  rw [performAll_cons _ _ _ _ csum, performAll] at run
  exact ⟨_, run, rfl, congrArg cksum input, input⟩

/-- Settles O24: what the host loads is the request that BLDDG sums, and the host puts the same checksum at the same place. -/
theorem blddgEqualsTheSequenceByHand : Obligations.BlddgEqualsTheSequenceByHand := by
  intro s hcap hfits
  obtain ⟨u, hu, herr, hcsum, hinput⟩ :=
    performAll_ldin_csum (bs := s.request) hcap (s.request_length.trans_le hfits)
  refine ⟨s.afterBlddg, u, exec_blddg_completes hfits, hu, herr, hcsum, ?_, fun k => s.afterBlddg_outByte_beyond⟩
  rw [State.afterBlddg_output hcap hfits, State.datagram_eq_set, hcsum, hinput]

end Sys2Proof.Machine

/-! The command of 42_packet.md, BLDPKT: the packet it builds, byte by byte and field by field, when it aborts, and what its
header checksum covers. -/

namespace Sys2Proof.Machine

/-! ## The packet (42_packet.md R150; layout 30_encoding.md R99 to R104) -/

/-- The IPv4 header with its checksum filled in. -/
def State.builtHeader (s : State) : List Byte := withChecksum 10 s.header

/-- The header and the datagram after it: what a completed BLDPKT leaves at the beginning of OUT. -/
def State.packet (s : State) : List Byte := s.builtHeader ++ s.input

/-- What a completed BLDPKT leaves of `s`. -/
def State.afterBldpkt (s : State) : State := ((s.putOutput s.packet).setCsumRes (cksum s.header)).setErr 0

/-- The twenty bytes that every header has, the checksum's own two among them. -/
def State.fixedHeader (s : State) : List Byte :=
  [BitVec.ofNat 8 (0x40 + ihlOf s.operands.ipOpt), 0x00]
    ++ bytes2 (BitVec.ofNat 16 (headerLen s.operands.ipOpt + s.len.toNat)) ++ bytes2 s.operands.ipId
    ++ bytes2 (fragmentField s.len.toNat) ++ [s.operands.ipTtl, s.operands.ipProto] ++ bytes2 (cksum s.header)
    ++ bytes4 s.operands.ipSrc ++ bytes4 s.operands.ipDst

theorem State.fixedHeader_length (s : State) : s.fixedHeader.length = 20 := rfl

theorem State.builtHeader_eq (s : State) : s.builtHeader = s.fixedHeader ++ optionBytes s.operands.ipOpt := rfl

/-- Storing the checksum is undone by storing zero over it. -/
theorem State.builtHeader_zeroed (s : State) : (s.builtHeader.set 10 0).set 11 0 = s.header := rfl

theorem State.header_congr {s t : State} (hoperands : s.operands = t.operands) (hlen : s.len = t.len) : s.header = t.header := by
  rw [State.header, State.header, hoperands, hlen]

/-- The option byte and its three zero bytes (R153). -/
theorem optionBytes_of_ne_zero {opt : Byte} (h : opt ≠ 0) : optionBytes opt = [opt, 0x00, 0x00, 0x00] := if_neg h

theorem State.packet_header (s : State) {k : Nat} {b : Byte} (h : s.builtHeader[k]? = some b) : s.packet[k]? = some b := by
  obtain ⟨hk, -⟩ := List.getElem?_eq_some_iff.1 h
  rw [State.packet, List.getElem?_append_left hk, h]

theorem State.packet_fixed (s : State) {k : Nat} {b : Byte} (h : s.fixedHeader[k]? = some b) : s.packet[k]? = some b := by
  obtain ⟨hk, -⟩ := List.getElem?_eq_some_iff.1 h
  exact s.packet_header (by rw [State.builtHeader_eq, List.getElem?_append_left hk, h])

theorem State.packet_options (s : State) {k : Nat} {b : Byte} (h : (optionBytes s.operands.ipOpt)[k]? = some b) :
    s.packet[20 + k]? = some b := by
  refine s.packet_header ?_
  rw [State.builtHeader_eq, List.getElem?_append_right (by rw [s.fixedHeader_length]; omega), s.fixedHeader_length,
    Nat.add_sub_cancel_left, h]

theorem State.packet_payload (s : State) {k : Nat} (hk : k < s.len.toNat) :
    s.packet[headerLen s.operands.ipOpt + k]? = some (s.inByte k) := by
  have length : s.builtHeader.length = headerLen s.operands.ipOpt := s.builtHeader_length
  rw [State.packet, List.getElem?_append_right (by omega), length, Nat.add_sub_cancel_left]
  exact s.inBytes_get _ k hk

/-! ## What BLDPKT does -/

theorem exec_bldpkt_completes {s : State} (h : headerLen s.operands.ipOpt + s.len.toNat ≤ s.cfg.cap) :
    exec .bldpkt s = .next s.afterBldpkt := exec_of_abortKind_none ((abortKind_bldpkt_none_iff s).2 h)

/-- BLDPKT has ERR 0 only after it completed, and then the packet fits. -/
theorem exec_bldpkt_err_zero {s t : State} (ht : exec .bldpkt s = .next t) (herr : t.err = 0) :
    headerLen s.operands.ipOpt + s.len.toNat ≤ s.cfg.cap ∧ t = s.afterBldpkt := by
  obtain ⟨k, -, rfl⟩ | ⟨hk, rfl⟩ := exec_cases ht
  · exact absurd herr k.code_ne_zero
  · exact ⟨(abortKind_bldpkt_none_iff s).1 hk, rfl⟩

/-- The check of the result comes after that of the input (60_exceptions.md R194, R199). -/
theorem exec_bldpkt_overflow {s : State} (hlen : s.len.toNat ≤ s.cfg.cap)
    (h : s.cfg.cap < headerLen s.operands.ipOpt + s.len.toNat) : exec .bldpkt s = .next (s.setErr 3) := by
  refine exec_of_abortKind_some (k := .overflow) ?_
  rw [abortKind, if_neg (by omega)]
  exact if_pos h

theorem State.afterBldpkt_outByte_eq (s : State) (k : Nat) : s.afterBldpkt.outByte k = (s.putOutput s.packet).outByte k := by
  rw [State.afterBldpkt, State.setErr_outByte, State.setCsumRes_outByte]

theorem State.afterBldpkt_csumRes (s : State) : s.afterBldpkt.csumRes = cksum s.header := rfl

theorem State.afterBldpkt_frame (s : State) : s.afterBldpkt = { s with
    outBuf := s.afterBldpkt.outBuf, outLen := s.afterBldpkt.outLen, csumRes := s.afterBldpkt.csumRes, err := 0 } := by
  rw [State.afterBldpkt]
  generalize s.packet = bs, cksum s.header = c
  rfl

theorem State.afterBldpkt_outByte (s : State) {k : Nat} {b : Byte} (h : s.packet[k]? = some b) :
    s.afterBldpkt.outByte k = b := by
  obtain ⟨hk, rfl⟩ := List.getElem?_eq_some_iff.1 h
  rw [State.afterBldpkt_outByte_eq, State.putOutput_outByte, dif_pos hk]

theorem State.afterBldpkt_outByte_fixed (s : State) {k : Nat} {b : Byte} (h : s.fixedHeader[k]? = some b) :
    s.afterBldpkt.outByte k = b := s.afterBldpkt_outByte (s.packet_fixed h)

theorem State.afterBldpkt_outByte_payload (s : State) {k : Nat} (hk : k < s.len.toNat) :
    s.afterBldpkt.outByte (headerLen s.operands.ipOpt + k) = s.inByte k := s.afterBldpkt_outByte (s.packet_payload hk)

theorem State.afterBldpkt_outByte_beyond (s : State) {k : Nat} (hk : headerLen s.operands.ipOpt + s.len.toNat ≤ k) :
    s.afterBldpkt.outByte k = s.outByte k :=
  (s.afterBldpkt_outByte_eq k).trans (s.putOutput_outByte_beyond (s.packet_length.trans_le hk))

/-- The first `H` bytes of OUT are the header. -/
theorem State.afterBldpkt_outBytes_header (s : State) :
    s.afterBldpkt.outBytes (headerLen s.operands.ipOpt) = s.builtHeader := by
  have length : s.builtHeader.length = headerLen s.operands.ipOpt := s.builtHeader_length
  refine List.ext_getElem (by simp [length]) fun k _ hk => ?_
  have byte := s.afterBldpkt_outByte (s.packet_header (List.getElem?_eq_getElem hk))
  simpa [State.outBytes] using byte

section
variable {s : State} (hcap : s.cfg.Legal) (hfits : headerLen s.operands.ipOpt + s.len.toNat ≤ s.cfg.cap)
include hcap hfits

theorem State.afterBldpkt_outLen_toNat : s.afterBldpkt.outLen.toNat = headerLen s.operands.ipOpt + s.len.toNat :=
  (State.putOutput_outLen_toNat hcap (s.packet_length.trans_le hfits)).trans s.packet_length

theorem State.afterBldpkt_output : s.afterBldpkt.output = s.packet := by
  rw [State.afterBldpkt, State.setErr_output, State.setCsumRes_output]
  exact s.putOutput_output_of_le ((s.packet_length.trans_le hfits).trans hcap.2)

end

/-! ## The header's fields (R151, R152, R154, R155) -/

/-- Version 4, and IHL 5 or 6 (R151). -/
theorem State.afterBldpkt_outByte_zero (s : State) :
    s.afterBldpkt.outByte 0 = if s.operands.ipOpt = 0 then 0x45 else 0x46 := by
  rw [s.afterBldpkt_outByte_fixed (k := 0) rfl, ihlOf]
  split <;> rfl

theorem State.afterBldpkt_version_ihl (s : State) :
    (s.afterBldpkt.outByte 0).extractLsb' 4 4 = (4 : BitVec 4) ∧
    ((s.afterBldpkt.outByte 0).extractLsb' 0 4).toNat * 4 = headerLen s.operands.ipOpt ∧
    ((s.afterBldpkt.outByte 0).extractLsb' 0 4 = (5 : BitVec 4) ∨
      (s.afterBldpkt.outByte 0).extractLsb' 0 4 = (6 : BitVec 4)) := by
  rw [State.afterBldpkt_outByte_zero, headerLen_eq]
  split <;> decide

theorem State.afterBldpkt_totalLength (s : State) : memRead2 s.afterBldpkt.outByte 2 = s.afterBldpkt.outLen := by
  have outLen : s.afterBldpkt.outLen = BitVec.ofNat 16 (headerLen s.operands.ipOpt + s.len.toNat) :=
    congrArg (BitVec.ofNat 16) s.packet_length
  rw [outLen]
  exact memRead2_of_bytes _ 2 _ (s.afterBldpkt_outByte_fixed rfl) (s.afterBldpkt_outByte_fixed rfl)

theorem State.afterBldpkt_fragment (s : State) : memRead2 s.afterBldpkt.outByte 6 = fragmentField s.len.toNat :=
  memRead2_of_bytes _ 6 _ (s.afterBldpkt_outByte_fixed rfl) (s.afterBldpkt_outByte_fixed rfl)

/-- The checksum in CSUM_RES is that of the header in OUT with its checksum field zero. -/
theorem State.afterBldpkt_csumRes_of_output (s : State) : s.afterBldpkt.csumRes =
    cksum (((s.afterBldpkt.outBytes (headerLen s.operands.ipOpt)).set 10 0).set 11 0) := by
  rw [State.afterBldpkt_outBytes_header, State.builtHeader_zeroed, State.afterBldpkt_csumRes]

theorem State.afterBldpkt_outByte_ten (s : State) :
    s.afterBldpkt.outByte 10 = s.afterBldpkt.csumRes.extractLsb' 8 8 := s.afterBldpkt_outByte_fixed rfl

theorem State.afterBldpkt_outByte_eleven (s : State) :
    s.afterBldpkt.outByte 11 = s.afterBldpkt.csumRes.extractLsb' 0 8 := s.afterBldpkt_outByte_fixed rfl

theorem State.afterBldpkt_checksum (s : State) : memRead2 s.afterBldpkt.outByte 10 = s.afterBldpkt.csumRes :=
  memRead2_of_bytes _ 10 _ s.afterBldpkt_outByte_ten s.afterBldpkt_outByte_eleven

/-- The field has room for the estimate of every 16-bit length. -/
theorem fragmentField_toNat (v : Half) : (fragmentField v.toNat).toNat = 177 * (v.toNat / 1416) := by
  rw [fragmentField, BitVec.toNat_ofNat]
  omega

/-- A value of the field within its bound leaves the three flag bits zero. -/
theorem extractTop_eq_zero {v : Half} (h : v.toNat ≤ 0x1FCE) : v.extractLsb' 13 3 = 0 := by
  refine BitVec.eq_of_toNat_eq ?_
  rw [BitVec.extractLsb'_toNat, Nat.shiftRight_eq_div_pow, Nat.div_eq_of_lt (by omega)]
  rfl

/-- The estimate on its step `q`: one of the ranges of R154. -/
theorem fragmentField_of_range {n : Nat} (q : Nat) (low : q * 1416 ≤ n) (high : n < (q + 1) * 1416) :
    fragmentField n = BitVec.ofNat 16 (177 * q) := by
  rw [fragmentField, Nat.div_eq_of_lt_le low high]

theorem fragmentField_zero_steps {n : Nat} (high : n < 1416) : fragmentField n = 0x0000 :=
  fragmentField_of_range 0 (by omega) high

theorem fragmentField_one_step {n : Nat} (low : 1416 ≤ n) (high : n < 2832) : fragmentField n = 0x00B1 :=
  fragmentField_of_range 1 low high

theorem fragmentField_two_steps {n : Nat} (low : 2832 ≤ n) (high : n < 4248) : fragmentField n = 0x0162 :=
  fragmentField_of_range 2 low high

/-! ## The default packet of R150 and R155 -/

theorem State.header_of_reset {s : State} (hoperands : s.operands = OperandRegs.reset) (hlen : s.len.toNat = 8) :
    s.header = ipHeader OperandRegs.reset 8 := by
  rw [State.header, hoperands, hlen]

theorem cksum_ipHeader_reset : cksum (ipHeader OperandRegs.reset 8) = 0x7CDF := by decide

/-- Settles O25: the aborts in the order of the checks, the header's bytes and fields as they stand in the packet, and the
datagram after them. -/
theorem bldpktBuildsThePacket : Obligations.BldpktBuildsThePacket := by
  refine ⟨rfl, fun s H hcap hH => ?_⟩
  rw [← headerLen_eq] at hH
  subst hH
  refine ⟨fun h => exec_of_abortKind_some (abortKind_of_tooLong (by decide) h), exec_bldpkt_overflow, fun hfits => ?_⟩
  have header {k : Nat} {b : Byte} : s.fixedHeader[k]? = some b → s.afterBldpkt.outByte k = b := s.afterBldpkt_outByte_fixed
  have outLen := State.afterBldpkt_outLen_toNat hcap hfits
  refine ⟨s.afterBldpkt, exec_bldpkt_completes hfits, s.afterBldpkt_frame, outLen, s.afterBldpkt_csumRes_of_output,
    s.afterBldpkt_outByte_zero, header rfl, s.afterBldpkt_totalLength ▸ outLen,
    memRead2_of_bytes _ 4 _ (header rfl) (header rfl), s.afterBldpkt_fragment ▸ fragmentField_toNat s.len,
    header rfl, header rfl, s.afterBldpkt_checksum,
    memRead4_of_bytes _ 12 _ (header rfl) (header rfl) (header rfl) (header rfl),
    memRead4_of_bytes _ 16 _ (header rfl) (header rfl) (header rfl) (header rfl), fun hopt => ?_,
    fun k => s.afterBldpkt_outByte_payload, fun k => s.afterBldpkt_outByte_beyond, fun hoperands hinput => ?_⟩
  · have option {k : Nat} {b : Byte} (h : [s.operands.ipOpt, 0x00, 0x00, 0x00][k]? = some b) :
        s.afterBldpkt.outByte (20 + k) = b :=
      s.afterBldpkt_outByte (s.packet_options (by rw [optionBytes_of_ne_zero hopt, h]))
    exact ⟨option (k := 0) rfl, option (k := 1) rfl, option (k := 2) rfl, option (k := 3) rfl⟩
  · have default := State.header_of_reset hoperands (State.len_toNat_of_input hinput)
    refine ⟨?_, (congrArg cksum default).trans cksum_ipHeader_reset⟩
    rw [State.afterBldpkt_output hcap hfits, State.packet, State.builtHeader, default, hinput]
    decide

/-! ## The flags and fragment-offset field (R154, R156) -/

/-- Settles O26: the field is a multiple of 177 that counts whole steps of 1416 bytes, of which a packet holds at most 46. -/
theorem fragmentFieldIsTheLegacyEstimate : Obligations.FragmentFieldIsTheLegacyEstimate := by
  intro s H hcap hH hfits
  rw [← headerLen_eq] at hH
  subst hH
  have long := headerLen_ge s.operands.ipOpt
  have value := fragmentField_toNat s.len
  have hmax : s.cfg.cap ≤ 65535 := hcap.2
  have steps : s.len.toNat / 1416 ≤ 46 := by omega
  have bound : (fragmentField s.len.toNat).toNat ≤ 0x1FCE := by omega
  refine ⟨s.afterBldpkt, exec_bldpkt_completes hfits, ?_⟩
  rw [State.afterBldpkt_fragment]
  refine ⟨by omega, value, fragmentField_zero_steps, fragmentField_one_step, fragmentField_two_steps, by omega, steps, bound,
    extractTop_eq_zero bound, fun h2048 => ?_, State.afterBldpkt_outLen_toNat hcap hfits,
    fun k => s.afterBldpkt_outByte_payload⟩
  rcases Nat.lt_or_ge s.len.toNat 1416 with h | h
  · exact .inl (fragmentField_zero_steps h)
  · exact .inr (fragmentField_one_step h (by omega))

/-! ## The header checksum (R155) -/

/-- Settles O27: the sum runs over the header, which is a function of the operands and LEN. -/
theorem headerChecksumCoversTheHeaderOnly : Obligations.HeaderChecksumCoversTheHeaderOnly := by
  refine ⟨fun s H _ hH hfits => ?_, by decide, by decide, cksum_ipHeader_reset⟩
  rw [← headerLen_eq] at hH
  subst hH
  refine ⟨s.afterBldpkt, exec_bldpkt_completes hfits, s.afterBldpkt_csumRes_of_output, s.afterBldpkt_outByte_ten,
    s.afterBldpkt_outByte_eleven, fun u v hcfg hlen hoperands hv => ?_⟩
  rw [exec_bldpkt_completes (by rw [hcfg, hlen, hoperands]; exact hfits)] at hv
  cases hv
  exact congrArg cksum (State.header_congr hoperands hlen)

/-! ## What holds of every packet (R151, R159) -/

/-- Settles O28: ERR 0 says that BLDPKT completed, and the first `H` bytes of OUT are then a header whose checksum is
filled in. -/
theorem bldpktOutputInvariants : Obligations.BldpktOutputInvariants := by
  intro s t H hcap hH ht herr
  obtain ⟨hfits, rfl⟩ := exec_bldpkt_err_zero ht herr
  rw [← headerLen_eq] at hH
  subst hH
  obtain ⟨version, ihl, ihlValue⟩ := s.afterBldpkt_version_ihl
  refine ⟨version, ihl, ihlValue, s.afterBldpkt_totalLength, s.afterBldpkt_outByte_fixed rfl, ?_,
    fun k => s.afterBldpkt_outByte_payload, fun hoperands hlen => ?_⟩
  · rw [State.afterBldpkt_outBytes_header]
    exact s.cksum_builtHeader
  · have outLen : s.afterBldpkt.outLen = 28 := by
      refine BitVec.eq_of_toNat_eq ?_
      rw [State.afterBldpkt_outLen_toNat hcap hfits, hoperands, hlen]
      rfl
    have first : s.afterBldpkt.outByte 0 = 0x45 := by
      rw [State.afterBldpkt_outByte_zero, hoperands]
      rfl
    exact ⟨outLen, first, s.afterBldpkt_outByte_fixed rfl, s.afterBldpkt_totalLength.trans outLen⟩

end Sys2Proof.Machine

/-! The command of 43_decode.md, DECODE: the fifteen fields it unpacks, when it aborts, and that it takes apart what the builders
put together. -/

namespace Sys2Proof.Machine

/-! ## What DECODE does (R170, R171) -/

/-- What a completed DECODE leaves of `s`. -/
def State.afterDecode (s : State) : State := (delivered .decode s).setErr 0

theorem abortKind_decode_none_iff (s : State) : abortKind .decode s = none ↔
    s.len.toNat ≤ s.cfg.cap ∧ 28 ≤ s.len.toNat ∧ versionNibble (s.inByte 0) = 4 := by
  simp [abortKind, check_eq_none]

theorem exec_decode_completes {s : State} (hlong : 28 ≤ s.len.toNat) (hfits : s.len.toNat ≤ s.cfg.cap)
    (hversion : versionNibble (s.inByte 0) = 4) : exec .decode s = .next s.afterDecode :=
  exec_of_abortKind_none ((abortKind_decode_none_iff s).2 ⟨hfits, hlong, hversion⟩)

theorem exec_decode_malformed {s : State} (hfits : s.len.toNat ≤ s.cfg.cap)
    (h : s.len.toNat < 28 ∨ versionNibble (s.inByte 0) ≠ 4) : exec .decode s = .next (s.setErr 4) := by
  refine exec_of_abortKind_some (k := .malformedReply) ?_
  have input_fits : ¬ (Instr.decode ≠ .move ∧ s.cfg.cap < s.len.toNat) := by omega
  rw [abortKind, if_neg input_fits]
  exact if_pos h

/-- DECODE has ERR 0 only after it completed. -/
theorem exec_decode_err_zero {s t : State} (ht : exec .decode s = .next t) (herr : t.err = 0) : t = s.afterDecode := by
  obtain ⟨k, -, rfl⟩ | ⟨-, rfl⟩ := exec_cases ht
  · exact absurd herr k.code_ne_zero
  · rfl

theorem ihlNibble_toNat (b : Byte) : (ihlNibble b).toNat = b.toNat % 16 := by
  rw [ihlNibble, BitVec.extractLsb'_toNat, Nat.shiftRight_zero]

/-- An input written out gives its bytes. -/
theorem State.inByte_of_input {s : State} {bs : List Byte} (h : s.input = bs) {k : Nat} (hk : k < bs.length) :
    s.inByte k = bs.getD k 0 := by
  have byte : s.input[k]? = some (s.inByte k) := s.inBytes_get _ k (by rwa [State.len_toNat_of_input h])
  rw [List.getD_eq_getElem?_getD, ← h, byte, Option.getD_some]

/-- Settles O29: the aborts in the order of the checks, and the fields of `unpack` as numbers. -/
theorem decodeUnpacksTheHeaders : Obligations.DecodeUnpacksTheHeaders := by
  refine ⟨rfl, fun s => ⟨fun h => exec_of_abortKind_some (abortKind_of_tooLong (by decide) h),
    fun hfits hshort => exec_decode_malformed hfits (.inl hshort), fun _ hfits hversion => ?_, fun hlong hfits hversion => ?_,
    fun hcap hinput => ?_⟩⟩
  · exact exec_decode_malformed hfits (.inr (mt (versionNibble_eq_four _).1 hversion))
  · have version := (versionNibble_eq_four _).2 hversion
    exact ⟨s.afterDecode, exec_decode_completes hlong hfits version, rfl, version, ihlNibble_toNat _,
      memRead2_toNat _ 2, memRead2_toNat _ 4, memRead2_toNat _ 6, rfl, rfl, memRead2_toNat _ 10, memRead4_toNat _ 12,
      memRead4_toNat _ 16, rfl, rfl, memRead2_toNat _ 22, memRead2_toNat _ 24, memRead2_toNat _ 26⟩
  · have len : s.len.toNat = 28 := State.len_toNat_of_input hinput
    have bytes (k : Nat) (hk : k < 28) := State.inByte_of_input hinput hk
    have version : versionNibble (s.inByte 0) = 4 := by rw [bytes 0 (by decide)]; decide
    rw [exec_decode_completes len.ge (len.trans_le hcap) version, State.afterDecode, delivered, unpack_congr bytes]
    rfl

/-! ## The output, moved and decoded -/

/-- CAP and the operand registers are the same before and after a command. -/
theorem exec_keeps_operands {i : Instr} {s t : State} (h : exec i s = .next t) : t.cfg = s.cfg ∧ t.operands = s.operands := by
  obtain ⟨hcfg, hoperands, -⟩ := eachPieceOfStateHasItsWriters i s t h
  exact ⟨hcfg, hoperands⟩

/-- What MOVE leaves of `s`. -/
def State.afterMove (s : State) : State := (delivered .move s).setErr 0

theorem State.afterMove_inByte (s : State) {k : Nat} (hk : k < s.outLen.toNat) : s.afterMove.inByte k = s.outByte k := by
  have stored : s.afterMove.inByte k = (s.fillInput s.output).inByte k := rfl
  rw [stored, State.fillInput_inByte, dif_pos (by simpa using hk)]
  exact (List.getElem_eq_iff _).2 (s.outBytes_get _ k hk)

theorem exec_move_completes (s : State) : exec .move s = .next s.afterMove := exec_move s

/-- MOVE and DECODE unpack the output. -/
theorem decode_moved {s : State} (hlong : 28 ≤ s.outLen.toNat) (hfits : s.outLen.toNat ≤ s.cfg.cap)
    (hversion : versionNibble (s.outByte 0) = 4) :
    ∃ s1 s2, exec .move s = .next s1 ∧ exec .decode s1 = .next s2 ∧ s2.err = 0 ∧ s2.dec = unpack s.outByte :=
  ⟨_, _, exec_move_completes s, exec_decode_completes hlong hfits (by rwa [s.afterMove_inByte (by omega)]), rfl,
    unpack_congr fun _ hk => s.afterMove_inByte (hk.trans_le hlong)⟩

/-- An output shorter than the two headers is rejected. -/
theorem decode_moved_short {s : State} (hshort : s.outLen.toNat < 28) (hfits : s.outLen.toNat ≤ s.cfg.cap) :
    ∃ s1 s2, exec .move s = .next s1 ∧ exec .decode s1 = .next s2 ∧ s2.err = 4 :=
  ⟨_, _, exec_move_completes s, exec_decode_malformed hfits (.inl hshort), rfl⟩

section
variable {s : State} (hcap : s.cfg.Legal) (hfits : headerLen s.operands.ipOpt + s.len.toNat ≤ s.cfg.cap)
include hcap hfits

theorem decode_packet (hlong : 28 ≤ headerLen s.operands.ipOpt + s.len.toNat) :
    ∃ s2 s3, exec .move s.afterBldpkt = .next s2 ∧ exec .decode s2 = .next s3 ∧ s3.err = 0 ∧
      s3.dec = unpack s.afterBldpkt.outByte := by
  have outLen := State.afterBldpkt_outLen_toNat hcap hfits
  obtain ⟨version, -⟩ := s.afterBldpkt_version_ihl
  obtain ⟨hcfg, -⟩ := exec_keeps_operands (exec_bldpkt_completes hfits)
  exact decode_moved (hlong.trans_eq outLen.symm) (by rwa [outLen, hcfg]) version

theorem decode_packet_short (hshort : headerLen s.operands.ipOpt + s.len.toNat < 28) :
    ∃ s2 s3, exec .move s.afterBldpkt = .next s2 ∧ exec .decode s2 = .next s3 ∧ s3.err = 4 := by
  have outLen := State.afterBldpkt_outLen_toNat hcap hfits
  obtain ⟨hcfg, -⟩ := exec_keeps_operands (exec_bldpkt_completes hfits)
  exact decode_moved_short (outLen.trans_lt hshort) (by rwa [outLen, hcfg])

end

/-! ## A packet with options (R173) -/

theorem headerLen_of_ne_zero {opt : Byte} (h : opt ≠ 0) : headerLen opt = 24 := (headerLen_eq opt).trans (if_neg h)

theorem State.afterBldpkt_outByte_option {s : State} (hopt : s.operands.ipOpt ≠ 0) {k : Nat} {b : Byte}
    (h : [s.operands.ipOpt, 0x00, 0x00, 0x00][k]? = some b) : s.afterBldpkt.outByte (20 + k) = b :=
  s.afterBldpkt_outByte (s.packet_options (by rw [optionBytes_of_ne_zero hopt, h]))

/-- With options, bytes 20 to 27 of a packet are the four option bytes and the first four bytes of the datagram. -/
theorem State.unpack_packet_with_options {s : State} (hopt : s.operands.ipOpt ≠ 0) (hlong : 4 ≤ s.len.toNat) :
    (unpack s.afterBldpkt.outByte).ihl = 6 ∧ (unpack s.afterBldpkt.outByte).icmpType = s.operands.ipOpt ∧
    (unpack s.afterBldpkt.outByte).icmpCode = 0 ∧ (unpack s.afterBldpkt.outByte).icsum = 0 ∧
    (unpack s.afterBldpkt.outByte).icmpId = memRead2 s.inByte 0 ∧
    (unpack s.afterBldpkt.outByte).icmpSeq = memRead2 s.inByte 2 := by
  have first : s.afterBldpkt.outByte 0 = 0x46 := by rw [State.afterBldpkt_outByte_zero, if_neg hopt]
  have option {k : Nat} {b : Byte} : [s.operands.ipOpt, 0x00, 0x00, 0x00][k]? = some b → s.afterBldpkt.outByte (20 + k) = b :=
    State.afterBldpkt_outByte_option hopt
  have payload (k : Nat) (hk : k < 4) : s.afterBldpkt.outByte (24 + k) = s.inByte k :=
    headerLen_of_ne_zero hopt ▸ s.afterBldpkt_outByte_payload (hk.trans_le hlong)
  simp only [unpack]
  exact ⟨by rw [first]; rfl, option (k := 0) rfl, option (k := 1) rfl,
    memRead2_of_bytes _ 22 _ (option (k := 2) rfl) (option (k := 3) rfl),
    congrArg₂ (· ++ ·) (payload 0 (by decide)) (payload 1 (by decide)),
    congrArg₂ (· ++ ·) (payload 2 (by decide)) (payload 3 (by decide))⟩

/-- Settles O30: `unpack` reads at byte 20, where a packet with options has the option byte and three zero bytes. -/
theorem decodeTakesTheMessageAtByteTwenty : Obligations.DecodeTakesTheMessageAtByteTwenty := by
  refine ⟨fun s t ht herr => ?_, fun s hcap hopt hlong hfits => ?_⟩
  · obtain rfl := exec_decode_err_zero ht herr
    exact ⟨rfl, rfl, rfl, rfl, rfl, rfl⟩
  · rw [← headerLen_of_ne_zero hopt] at hfits
    have long : 28 ≤ headerLen s.operands.ipOpt + s.len.toNat := by rw [headerLen_of_ne_zero hopt]; omega
    obtain ⟨s2, s3, moved, decoded, herr, hdec⟩ := decode_packet hcap hfits long
    refine ⟨s.afterBldpkt, s2, s3, exec_bldpkt_completes hfits, moved, decoded, herr, ?_⟩
    rw [hdec]
    exact State.unpack_packet_with_options hopt hlong

/-! ## A packet without options (R175) -/

theorem headerLen_of_eq_zero {opt : Byte} (h : opt = 0) : headerLen opt = 20 := (headerLen_eq opt).trans (if_pos h)

/-- The fields of a packet of `s` without options, where `t` is what BLDPKT left: the header is made of the operands, and the
first eight bytes of the datagram stand where DECODE reads the ICMP header. -/
def State.packedFields (s t : State) : DecodeRegs where
  ver := 4
  ihl := 5
  totLen := t.outLen
  ipId := s.operands.ipId
  frag := fragmentField s.len.toNat
  ttl := s.operands.ipTtl
  proto := s.operands.ipProto
  hcsum := t.csumRes
  src := s.operands.ipSrc
  dst := s.operands.ipDst
  icmpType := s.inByte 0
  icmpCode := s.inByte 1
  icsum := memRead2 s.inByte 2
  icmpId := memRead2 s.inByte 4
  icmpSeq := memRead2 s.inByte 6

theorem State.unpack_packet {s : State} (hopt : s.operands.ipOpt = 0) (hlong : 8 ≤ s.len.toNat) :
    unpack s.afterBldpkt.outByte = s.packedFields s.afterBldpkt := by
  have header {k : Nat} {b : Byte} : s.fixedHeader[k]? = some b → s.afterBldpkt.outByte k = b := s.afterBldpkt_outByte_fixed
  have first : s.afterBldpkt.outByte 0 = 0x45 := by rw [State.afterBldpkt_outByte_zero, if_pos hopt]
  have message (k : Nat) (hk : k < 8) : s.afterBldpkt.outByte (20 + k) = s.inByte k :=
    headerLen_of_eq_zero hopt ▸ s.afterBldpkt_outByte_payload (hk.trans_le hlong)
  have message2 (k : Nat) (hk : k + 1 < 8) : memRead2 s.afterBldpkt.outByte (20 + k) = memRead2 s.inByte k :=
    congrArg₂ (· ++ ·) (message k (by omega)) (message (k + 1) hk)
  simp only [unpack, State.packedFields, DecodeRegs.mk.injEq]
  exact ⟨by rw [first]; rfl, by rw [first]; rfl, s.afterBldpkt_totalLength,
    memRead2_of_bytes _ 4 _ (header rfl) (header rfl), s.afterBldpkt_fragment, header rfl, header rfl, s.afterBldpkt_checksum,
    memRead4_of_bytes _ 12 _ (header rfl) (header rfl) (header rfl) (header rfl),
    memRead4_of_bytes _ 16 _ (header rfl) (header rfl) (header rfl) (header rfl),
    message 0 (by decide), message 1 (by decide), message2 2 (by decide), message2 4 (by decide), message2 6 (by decide)⟩

section
variable {s : State} (hcap : s.cfg.Legal) (hopt : s.operands.ipOpt = 0) (hfits : 20 + s.len.toNat ≤ s.cfg.cap)
include hcap hopt hfits

/-- BLDPKT, MOVE and DECODE give back the fields. -/
theorem bldpkt_move_decode (hlong : 8 ≤ s.len.toNat) :
    ∃ s1 s2 s3, exec .bldpkt s = .next s1 ∧ exec .move s1 = .next s2 ∧ exec .decode s2 = .next s3 ∧ s3.err = 0 ∧
      s3.dec = s.packedFields s1 := by
  have header := headerLen_of_eq_zero hopt
  rw [← header] at hfits
  obtain ⟨s2, s3, moved, decoded, herr, hdec⟩ := decode_packet hcap hfits (by omega)
  exact ⟨s.afterBldpkt, s2, s3, exec_bldpkt_completes hfits, moved, decoded, herr, hdec.trans (State.unpack_packet hopt hlong)⟩

/-- A datagram shorter than 8 bytes makes a packet shorter than 28. -/
theorem bldpkt_move_decode_short (hshort : s.len.toNat < 8) :
    ∃ s1 s2 s3, exec .bldpkt s = .next s1 ∧ exec .move s1 = .next s2 ∧ exec .decode s2 = .next s3 ∧ s3.err = 4 := by
  have header := headerLen_of_eq_zero hopt
  rw [← header] at hfits
  obtain ⟨s2, s3, moved, decoded, herr⟩ := decode_packet_short hcap hfits (by omega)
  exact ⟨s.afterBldpkt, s2, s3, exec_bldpkt_completes hfits, moved, decoded, herr⟩

end

/-- BLDDG and MOVE make the datagram the input, with its fields where DECODE of a packet will look for them, and leave the
operands of BLDPKT. -/
theorem blddg_move {s : State} (hcap : s.cfg.Legal) (hfits : 8 + s.len.toNat ≤ s.cfg.cap) :
    ∃ s1 s2, exec .blddg s = .next s1 ∧ exec .move s1 = .next s2 ∧ s2.cfg = s.cfg ∧ s2.operands = s.operands ∧
      s2.len.toNat = 8 + s.len.toNat ∧ s2.inByte 0 = 8 ∧ s2.inByte 1 = 0 ∧ memRead2 s2.inByte 4 = s.operands.icmpId ∧
      memRead2 s2.inByte 6 = s.operands.icmpSeq ∧ memRead2 s2.inByte 2 = s1.csumRes := by
  have outLen := State.afterBlddg_outLen_toNat hcap hfits
  have built := exec_blddg_completes hfits
  obtain ⟨hcfg, hoperands⟩ := exec_keeps_operands built
  obtain ⟨hcfg', hoperands'⟩ := exec_keeps_operands (exec_move_completes s.afterBlddg)
  have byte {k : Nat} {b : Byte} (hk : k < 8) (h : s.datagram[k]? = some b) : s.afterBlddg.afterMove.inByte k = b :=
    (s.afterBlddg.afterMove_inByte (by omega)).trans (s.afterBlddg_outByte h)
  exact ⟨s.afterBlddg, _, built, exec_move_completes _, hcfg'.trans hcfg, hoperands'.trans hoperands, outLen,
    byte (by decide) rfl, byte (by decide) rfl,
    memRead2_of_bytes _ 4 _ (byte (by decide) rfl) (byte (by decide) rfl),
    memRead2_of_bytes _ 6 _ (byte (by decide) rfl) (byte (by decide) rfl),
    memRead2_of_bytes _ 2 _ (byte (by decide) rfl) (byte (by decide) rfl)⟩

/-- Settles O31: the packet's fields, and the datagram of BLDDG moved to IN as the input of BLDPKT. -/
theorem decodeRecoversWhatTheBuildersPacked : Obligations.DecodeRecoversWhatTheBuildersPacked := by
  refine ⟨fun s hcap hopt hfits => ?_, fun s hcap hopt hfits => ?_⟩
  · rcases Nat.lt_or_ge s.len.toNat 8 with short | long
    · obtain ⟨s1, s2, s3, built, moved, decoded, herr⟩ := bldpkt_move_decode_short hcap hopt hfits short
      exact ⟨s1, s2, s3, built, moved, decoded, fun _ => herr, fun long => by omega⟩
    · obtain ⟨s1, s2, s3, built, moved, decoded, herr, hdec⟩ := bldpkt_move_decode hcap hopt hfits long
      refine ⟨s1, s2, s3, built, moved, decoded, fun short => by omega, fun _ => ⟨herr, ?_⟩⟩
      rw [hdec]
      exact ⟨rfl, rfl, rfl, rfl, fragmentField_toNat s.len, rfl, rfl, rfl, rfl, rfl⟩
  · obtain ⟨s1, s2, built1, moved1, hcfg, hoperands, hlen, message⟩ := blddg_move hcap (by omega)
    have fits : 20 + s2.len.toNat ≤ s2.cfg.cap := by rw [hcfg]; omega
    obtain ⟨s3, s4, s5, built, moved, decoded, herr, hdec⟩ :=
      bldpkt_move_decode (hcfg ▸ hcap) (hoperands ▸ hopt) fits (by omega)
    refine ⟨s1, s2, s3, s4, s5, built1, moved1, built, moved, decoded, herr, ?_⟩
    rw [← hoperands] at message ⊢
    rw [hdec, ← hlen]
    exact ⟨rfl, rfl, rfl, rfl, fragmentField_toNat s2.len, rfl, rfl, rfl, rfl, rfl, message⟩

end Sys2Proof.Machine

/-! The command of 44_move.md, MOVE: the copy it makes, its frame, and that the host can make the same copy
through the windows. -/

namespace Sys2Proof.Machine

/-! ## The copy (R185) -/

@[simp] theorem Memory.fill_nil (m : Memory) : Memory.fill [] m = m := by simp [Memory.fill, cellsFrom]

/-- MOVE writes IN, LEN and ERR. -/
theorem State.afterMove_frame (s : State) : s.afterMove =
    { s with inBuf := Memory.fill s.output s.inBuf, len := s.outLen, err := 0 } := rfl

theorem State.afterMove_inByte_beyond (s : State) {k : Nat} (hk : s.outLen.toNat ≤ k) : s.afterMove.inByte k = s.inByte k := by
  have stored : s.afterMove.inByte k = (s.fillInput s.output).inByte k := rfl
  rw [stored, State.fillInput_inByte, dif_neg (by simpa using hk)]

theorem State.afterMove_input (s : State) : s.afterMove.input = s.output := s.move_input

/-- MOVE leaves OUT, so that a second MOVE fills IN with the same bytes again. -/
theorem State.afterMove_afterMove (s : State) : s.afterMove.afterMove = s.afterMove :=
  congrArg (fun m => { s with inBuf := m, len := s.outLen, err := 0 }) (Memory.fill_fill s.output s.inBuf)

theorem State.output_of_outLen_zero {s : State} (h : s.outLen = 0) : s.output = [] := by rw [State.output, h]; rfl

/-- With no valid output there is nothing to copy. -/
theorem State.afterMove_of_outLen_zero {s : State} (h : s.outLen = 0) : s.afterMove = { s with len := 0, err := 0 } := by
  rw [State.afterMove_frame, State.output_of_outLen_zero h, Memory.fill_nil, h]

/-- Settles O33: the bytes from the fill of IN by the output, the rest from the frame of MOVE. -/
theorem moveCopiesOutToIn : Obligations.MoveCopiesOutToIn := by
  refine ⟨rfl, fun s => ⟨s.afterMove, exec_move_completes s, s.afterMove_frame, fun k => s.afterMove_inByte,
    fun k => s.afterMove_inByte_beyond, s.afterMove_input, ?_, State.afterMove_of_outLen_zero, fun houtput => ?_⟩⟩
  · rw [exec_move_completes, State.afterMove_afterMove]
  · have input := s.afterMove_input.trans houtput
    exact ⟨input, BitVec.eq_of_toNat_eq (State.len_toNat_of_input input)⟩

/-- Settles O46: the registers and OUT from the writers of each piece of state, IN from what MOVE leaves. -/
theorem moveFrame : Obligations.MoveFrame := by
  intro s t h
  obtain ⟨hcfg, hoperands, -, -, hresets, -, hout, hcsum, hdec⟩ := eachPieceOfStateHasItsWriters .move s t h
  obtain ⟨houtBuf, houtLen⟩ := hout (by decide)
  obtain rfl : s.afterMove = t := by rw [exec_move_completes] at h; cases h; rfl
  exact ⟨State.outByte_congr houtBuf hresets, fun k => s.afterMove_inByte_beyond, hoperands, houtLen, hcsum (by decide),
    hdec (by decide), hcfg⟩

/-! ## The copy made by the host (R186) -/

/-- The next byte written after a fill makes the fill one byte longer. -/
theorem Memory.write_fill_length (bs : List Byte) (b : Byte) {m : Memory} (h : Memory.wf m) :
    Memory.write (Memory.fill bs m) bs.length b = Memory.fill (bs ++ [b]) m := by
  refine Memory.ext_read _ _ (Memory.write_wf _ _ _ (Memory.fill_wf bs m h)) (Memory.fill_wf _ m h) fun i => ?_
  rw [Memory.read_write, Memory.read_fill, Memory.read_fill, List.length_append, List.length_singleton]
  obtain below | rfl | beyond := Nat.lt_trichotomy i bs.length
  · rw [if_neg below.ne, if_pos below, if_pos (by omega), List.getElem?_append_left below]
  · rw [if_pos rfl, if_pos (by omega), List.getElem?_concat_length]
  · rw [if_neg beyond.ne', if_neg (by omega), if_neg (by omega)]

theorem State.outBytes_succ (s : State) (n : Nat) : s.outBytes (n + 1) = s.outBytes n ++ [s.outByte n] := by
  simp [State.outBytes, List.range_succ]

/-- The host's copy of `OUT[0..n)` to `IN[0..n)`: each byte read through the OUT window, then written through the IN window. -/
def State.copyEvents (s : State) (n : Nat) : List HostEvent :=
  (List.range n).flatMap fun k => [rbOut k, wb k (s.outByte k)]

/-- The responses to `State.copyEvents`. -/
def State.copyResponses (s : State) (n : Nat) : List Response :=
  (List.range n).flatMap fun k => [.okByte (s.outByte k), .ok]

/-- What the host's copy of `n` bytes leaves of `s`. -/
def State.copied (s : State) (n : Nat) : State :=
  { s.fillInput (s.outBytes n) with responses := s.responses ++ s.copyResponses n }

theorem State.copyEvents_succ (s : State) (n : Nat) :
    s.copyEvents (n + 1) = s.copyEvents n ++ [rbOut n, wb n (s.outByte n)] := by
  simp [State.copyEvents, List.range_succ]

theorem State.copyResponses_succ (s : State) (n : Nat) :
    s.copyResponses (n + 1) = s.copyResponses n ++ [.okByte (s.outByte n), .ok] := by
  simp [State.copyResponses, List.range_succ]

theorem State.copied_zero (s : State) : s.copied 0 = s := by
  simp [State.copied, State.fillInput, State.outBytes, State.copyResponses]

theorem State.copied_succ {s : State} (hwf : Memory.wf s.inBuf) (n : Nat) : s.copied (n + 1) =
    (((s.copied n).respond (.okByte (s.outByte n))).setInByte n (s.outByte n)).respond .ok := by
  have stored := Memory.write_fill_length (s.outBytes n) (s.outByte n) hwf
  rw [State.outBytes_length] at stored
  simp [State.copied, State.fillInput, State.respond, State.setInByte, State.outBytes_succ, State.copyResponses_succ, stored]

/-- Byte by byte, the copy fills IN with the bytes of OUT, which it does not change. -/
theorem performAll_copyEvents {s : State} (hwf : Memory.wf s.inBuf) (hcap : s.cfg.cap ≤ 65535) {n : Nat}
    (hn : n ≤ s.cfg.cap) : performAll (s.copyEvents n) s = .next (s.copied n) := by
  induction n with
  | zero => rw [State.copied_zero]; rfl
  | succ n ih =>
    have read : perform (rbOut n) (s.copied n) = .next ((s.copied n).respond (.okByte (s.outByte n))) :=
      transact_read_out hn hcap
    have write : perform (wb n (s.outByte n)) ((s.copied n).respond (.okByte (s.outByte n))) = .next (s.copied (n + 1)) := by
      rw [State.copied_succ hwf]
      exact transact_write_in (s := (s.copied n).respond _) hn hcap _
    rw [State.copyEvents_succ, performAll_append _ _ _ _ (ih (by omega)), performAll_cons _ _ _ _ read,
      performAll_cons _ _ _ _ write, performAll]

theorem narrow_widen {w : Nat} (v : BitVec w) (h : w ≤ 32) : narrow w (widen v) = v := by
  rw [narrow, widen, BitVec.setWidth_setWidth_of_le _ h, BitVec.setWidth_eq]

/-- Settles O34: after the copy of OUT_LEN bytes, the write of LEN takes from OUT_LEN what MOVE takes. -/
theorem moveEqualsTheCopyByTheHost : Obligations.MoveEqualsTheCopyByTheHost := by
  intro s inv
  obtain ⟨-, hcap⟩ := inv.legal
  have copy := performAll_copyEvents inv.inWf hcap inv.outLenFits
  have setLen : perform (wr .len (s.readReg .outLen)) (s.copied s.outLen.toNat) =
      .next (((s.copied s.outLen.toNat).setLen s.outLen).respond .ok) := by
    have write := hostWrite32_reg .len (s.readReg .outLen) (s.copied s.outLen.toNat) (by decide)
    rwa [State.writeReg, State.readReg, narrow_widen s.outLen (by decide)] at write
  refine ⟨s.afterMove, ((s.copied s.outLen.toNat).setLen s.outLen).respond .ok, exec_move_completes s, ?_,
    s.afterMove_frame, rfl⟩
  exact (performAll_append _ _ _ _ copy).trans (performAll_cons _ [] _ _ setLen)

end Sys2Proof.Machine

/-! The errors of 60_exceptions.md: when a command raises each kind, what an abort leaves, and that an error neither stops the
block nor sticks. -/

namespace Sys2Proof.Machine

/-! ## Which check fails, kind by kind (R193 to R195, in the order of R199) -/

/-- A sequence of checks raises the kind of its first check, or passes that one and raises a later kind. -/
theorem check_eq_some {p : Prop} [Decidable p] {k k' : ErrKind} {rest : Option ErrKind} :
    (if p then some k else rest) = some k' ↔ (p ∧ k = k') ∨ (¬ p ∧ rest = some k') := by
  split <;> simp [*]

theorem abortKind_badLength_iff (i : Instr) (s : State) : abortKind i s = some .badLength ↔
    (i ≠ .move ∧ s.cfg.cap < s.len.toNat) ∨ (i = .zcfIp ∧ s.len.toNat < 12) ∨ (i = .zcfIcmp ∧ s.len.toNat < 4) := by
  by_cases tooLong : i ≠ .move ∧ s.cfg.cap < s.len.toNat
  · exact iff_of_true (abortKind_of_tooLong tooLong.1 tooLong.2) (.inl tooLong)
  · unfold abortKind
    rw [if_neg tooLong, or_iff_right tooLong]
    cases i <;> simp

theorem abortKind_overflow_iff (i : Instr) (s : State) : abortKind i s = some .overflow ↔ s.len.toNat ≤ s.cfg.cap ∧
    ((i = .blddg ∧ s.cfg.cap < 8 + s.len.toNat) ∨
     (i = .bldpkt ∧ s.cfg.cap < headerLen s.operands.ipOpt + s.len.toNat)) := by
  unfold abortKind
  rw [check_eq_some]
  cases i <;> simp

theorem abortKind_malformedReply_iff (i : Instr) (s : State) : abortKind i s = some .malformedReply ↔
    i = .decode ∧ s.len.toNat ≤ s.cfg.cap ∧ (s.len.toNat < 28 ∨ versionNibble (s.inByte 0) ≠ 4) := by
  unfold abortKind
  rw [check_eq_some]
  cases i <;> simp [or_iff_not_imp_left]

/-- No command raises IllegalCommand: that kind comes from the word alone (R192). -/
theorem abortKind_ne_illegalCommand (i : Instr) (s : State) : abortKind i s ≠ some .illegalCommand := by
  unfold abortKind
  rw [ne_eq, check_eq_some]
  cases i <;> simp

/-! ## When a command raises a kind -/

theorem ErrKind.code_injective : Function.Injective ErrKind.code := fun k k' => by cases k <;> cases k' <;> decide

/-- A completion has ERR 0, which is the code of no kind, so the state with ERR replaced by a code tells which kind was raised. -/
theorem exec_raises_iff (i : Instr) (s : State) (k : ErrKind) :
    exec i s = .next (s.setErr k.code) ↔ abortKind i s = some k := by
  refine ⟨fun h => ?_, exec_of_abortKind_some⟩
  obtain ⟨k', hk', heq⟩ | ⟨-, heq⟩ := exec_cases h
  · rw [hk', ErrKind.code_injective (congrArg State.err heq)]
  · exact absurd (congrArg State.err heq) k.code_ne_zero

/-- Settles O35; LEN has 16 bits, so it is not above a CAP of 65535. -/
theorem badLengthExactlyWhen : Obligations.BadLengthExactlyWhen := by
  refine fun i s => ⟨(exec_raises_iff i s .badLength).trans (abortKind_badLength_iff i s), fun hcap => ?_⟩
  have := s.len.isLt
  omega

/-- Settles O36; `H` is the model's header length. -/
theorem overflowExactlyWhen : Obligations.OverflowExactlyWhen := by
  intro i s
  rw [← headerLen_eq]
  exact (exec_raises_iff i s .overflow).trans (abortKind_overflow_iff i s)

/-- Settles O37; the version nibble as a number is the top half of the byte. -/
theorem malformedReplyExactlyWhen : Obligations.MalformedReplyExactlyWhen := by
  intro i s
  rw [ne_eq, ← versionNibble_eq_four]
  exact (exec_raises_iff i s .malformedReply).trans (abortKind_malformedReply_iff i s)

/-! ## Aborts (R192, R198, R199) -/

/-- The kinds that R198 allows a command. -/
def Instr.mayRaise : Instr → List ErrKind
  | .csum | .zcfIp | .zcfIcmp => [.badLength]
  | .blddg | .bldpkt => [.badLength, .overflow]
  | .decode => [.badLength, .malformedReply]
  | .move => []

theorem abortKind_mem_mayRaise {i : Instr} {s : State} {k : ErrKind} (h : abortKind i s = some k) :
    k ∈ Instr.mayRaise i := by
  cases k with
  | illegalCommand => exact absurd h (abortKind_ne_illegalCommand i s)
  | badLength =>
    have notMove : i ≠ .move := by rintro rfl; simp [abortKind_badLength_iff] at h
    cases i <;> simp [Instr.mayRaise] at notMove ⊢
  | overflow =>
    obtain ⟨-, ⟨rfl, -⟩ | ⟨rfl, -⟩⟩ := (abortKind_overflow_iff i s).1 h <;> decide
  | malformedReply =>
    obtain ⟨rfl, -⟩ := (abortKind_malformedReply_iff i s).1 h
    decide

/-- Settles O38: a command that does not complete raises a kind that R198 allows it, and an abort is `setErr`. -/
theorem abortsArePrecise : Obligations.AbortsArePrecise := by
  refine ⟨fun i s t ht herr => ?_, runCommandWord_error⟩
  obtain ⟨k, hk, rfl⟩ | ⟨-, rfl⟩ := exec_cases ht
  · have allowed := abortKind_mem_mayRaise hk
    refine ⟨rfl, ?_⟩
    cases i <;> simp only [Instr.mayRaise, List.mem_cons, List.not_mem_nil, or_false] at allowed
    case csum | zcfIp | zcfIcmp => subst allowed; rfl
    case blddg | bldpkt | decode => exact allowed.imp (congrArg ErrKind.code) (congrArg ErrKind.code)
  · exact absurd rfl herr

/-- Settles O39: the word first, then LEN > CAP, then each command's own check where LEN <= CAP. -/
theorem theFirstErrorIsReported : Obligations.TheFirstErrorIsReported := by
  refine ⟨runCommandWord_error, fun i s hi h => (badLengthExactlyWhen i s).1.2 (.inl ⟨hi, h⟩), ?legal,
    fun s _ h => (badLengthExactlyWhen .zcfIp s).1.2 (.inr (.inl ⟨rfl, h⟩)),
    fun s _ h => (badLengthExactlyWhen .zcfIcmp s).1.2 (.inr (.inr ⟨rfl, h⟩)),
    fun s hfits h => (overflowExactlyWhen .blddg s).2 ⟨hfits, .inl ⟨rfl, h⟩⟩,
    fun s hfits h => (overflowExactlyWhen .bldpkt s).2 ⟨hfits, .inr ⟨rfl, h⟩⟩,
    fun s hfits h => (malformedReplyExactlyWhen .decode s).2 ⟨rfl, hfits, h⟩⟩
  case legal =>
    rintro s ⟨hmin, -⟩ tooLong
    omega

/-! ## After an error (R191, R202) -/

/-- Settles O14: a transaction, a reset and the idle step each answer. -/
theorem everyStepAnswers : Obligations.EveryStepAnswers := step_next

/-- Settles O12: the step takes the event off the list, and the bus answers OK after the abort. -/
theorem stepAbortsOnAnIllegalWord : Obligations.StepAbortsOnAnIllegalWord := by
  intro s w e rest hp hw
  calc step s = hostWrite32 0x000 w (s.setPending rest) := step_cons hp
    _ = andThen (runCommandWord w (s.setPending rest)) (fun t => t.respond .ok) := hostWrite32_cmd w _
    _ = .next (((s.setPending rest).setErr 1).respond .ok) := by rw [runCommandWord_error w e _ hw, andThen_next]

/-- No check reads ERR. -/
theorem abortKind_setErr (i : Instr) (s : State) (e : BitVec 4) : abortKind i (s.setErr e) = abortKind i s := rfl

/-- No result depends on ERR, which a completion writes last. -/
theorem delivered_setErr (i : Instr) (s : State) (e : BitVec 4) :
    (delivered i (s.setErr e)).setErr 0 = (delivered i s).setErr 0 := by cases i <;> rfl

/-- Settles O40: neither the checks nor the results read ERR, and both ends of a command write it. -/
theorem anErrorDoesNotStick : Obligations.AnErrorDoesNotStick := by
  intro i s e
  calc exec i (s.setErr e)
    _ = .next ((abortKind i s).elim ((delivered i s).setErr 0) (fun k => (s.setErr e).setErr k.code)) := by
      rw [exec_eq, abortKind_setErr, delivered_setErr]
    _ = exec i s := (exec_eq i s).symm

end Sys2Proof.Machine

/-! Reset of 70_reset_and_hazards.md: the registers after the reset input, and what the commands do straight from power-on. -/

namespace Sys2Proof.Machine

/-! ## The reset input (R220, R221) -/

/-- No register's reading after reset depends on what the block did before it. -/
theorem State.applyReset_readReg (s : State) (r : Reg) : s.applyReset.readReg r = (State.powerOn s.cfg).readReg r := by
  cases r <;> rfl

/-- The values `State.applyReset` gives are those of the table of 10_state.md section 7. -/
theorem State.applyReset_resetOf (s : State) : Spec.resetOf s s.applyReset :=
  ⟨rfl, s.applyReset_err, s.applyReset_len, s.applyReset_outLen, s.applyReset_csumRes, rfl, s.applyReset_cfg,
    s.applyReset_pending, s.applyReset_responses, s.applyReset_inBuf, s.applyReset_outBuf, s.applyReset_readReg⟩

/-- Settles O16: the reset input, and the step that takes it off the host's list first. -/
theorem resetGivesTheTabledValues : Obligations.ResetGivesTheTabledValues :=
  ⟨fun s => ⟨s.applyReset, rfl, s.applyReset_resetOf⟩, fun s rest h =>
    ⟨(s.setPending rest).applyReset, step_cons h, State.applyReset_pending _, State.applyReset_responses _,
      (s.setPending rest).applyReset_resetOf⟩⟩

/-! ## Commands straight from power-on (R223; 44_move.md R185): LEN and OUT_LEN are 0 -/

section
variable (c : Config)

theorem State.powerOn_len_toNat : (State.powerOn c).len.toNat = 0 := rfl

theorem exec_csum_powerOn : exec .csum (State.powerOn c) = .next { State.powerOn c with csumRes := 0xFFFF } := by
  have fits : (State.powerOn c).len.toNat ≤ c.cap := Nat.zero_le _
  have value : cksum [] = 0xFFFF := by decide
  rw [exec_csum_completes fits, State.input_of_len_zero (State.powerOn_len c), value]
  rfl

/-- The example of 41_datagram.md R140: ICMP_ID, ICMP_SEQ and LEN are 0. -/
theorem exec_blddg_powerOn (hcap : c.Legal) : ∃ t, exec .blddg (State.powerOn c) = .next t ∧ t.err = 0 ∧ t.outLen = 8 ∧
    t.csumRes = 0xF7FF ∧ t.output = [0x08, 0x00, 0xF7, 0xFF, 0x00, 0x00, 0x00, 0x00] := by
  have fits : 8 + (State.powerOn c).len.toNat ≤ c.cap := by
    rw [State.powerOn_len_toNat]
    exact Nat.le_trans (by decide) hcap.1
  obtain ⟨-, -, completes⟩ := blddgBuildsTheEchoRequest.2 (State.powerOn c) hcap
  obtain ⟨t, ht, hframe, houtLen, -, -, -, -, -, -, -, -, -, -, -, hexample⟩ := completes fits
  obtain ⟨houtput, hcsumRes⟩ := hexample rfl rfl rfl
  exact ⟨t, ht, congrArg State.err hframe, BitVec.eq_of_toNat_eq houtLen, hcsumRes, houtput⟩

/-- An empty input is shorter than the two headers. -/
theorem exec_decode_powerOn : exec .decode (State.powerOn c) = .next { State.powerOn c with err := 4 } :=
  exec_decode_malformed (Nat.zero_le _) (.inl ((State.powerOn_len_toNat c).trans_lt (by decide)))

/-- There is no output to copy, and LEN and ERR are 0 already. -/
theorem exec_move_powerOn : exec .move (State.powerOn c) = .next (State.powerOn c) := by
  rw [exec_move_completes, State.afterMove_of_outLen_zero (State.powerOn_outLen c)]
  rfl

end

/-- Settles O17, command by command; only BLDDG, which needs 8 bytes of OUT, asks for the bound on CAP. -/
theorem commandsFromReset : Obligations.CommandsFromReset := fun c hcap =>
  ⟨exec_csum_powerOn c, exec_blddg_powerOn c hcap, exec_decode_powerOn c, exec_move_powerOn c⟩

end Sys2Proof.Machine
